-- ==== Sys2Proof/Word.lean ====
section
/-! DEFINITION. The words of the block: the widths that spec/ fixes (00_scope.md R5, R7; 10_state.md R26, R27). -/

namespace Sys2Proof

/-- A 64-bit word: a command word, a response data word, an event counter (30_encoding.md R80; R63; R36). -/
abbrev Word := BitVec 64

/-- A byte of the output (20_memory.md R67). -/
abbrev Byte := BitVec 8

/-- A symbol code, `SYM_W` = 21 bits, only ever compared as an unsigned number (R5, R12, R26). -/
abbrev Sym := BitVec 21

/-- A leaf frequency as the host loads it, `FREQ_W` = 32 bits unsigned (R5, R26). -/
abbrev Freq := BitVec 32

/-- A node frequency, `SUM_W` = 48 bits unsigned (R5, R27, R140). -/
abbrev NodeFreq := BitVec 48

/-- A node index or a sequence id as an arena entry holds it, 16 bits (R27, R29). -/
abbrev NodeIdx := BitVec 16

/-- The 32-bit operand field VAL: a size, a register number or an index (R81, R83). -/
abbrev Val := BitVec 32

/-- A code: a finite sequence of bits, first bit first, `true` for 1 (R8, R31). -/
abbrev Code := List Bool

end Sys2Proof
end

