-- ==== Sys2Proof/Config.lean ====
section
/-! DEFINITION. The implementation parameters of the block (00_scope.md R5; 92_eei_decisions.md D7, D8).
The spec leaves both OPEN and has a model take them as arguments, so a `Params` stands in `State` as an input that no
step writes (log entry 1).  The block has no free value of any other kind: see NOTES.md. -/

namespace Sys2Proof

/-- `N_MAX` and `BUF_MAX`.  `bufMax` is 32 bits wide, which is R5's bound `BUF_MAX <= 2^32 - 1`. -/
structure Params where
  /-- largest alphabet the block holds, 1 to 32768 -/
  nMax   : Nat
  /-- largest BUF_SIZE in bytes, 1 to 2^32 - 1 -/
  bufMax : BitVec 32
  deriving DecidableEq, Repr

/-- The defaults of R5: N_MAX = 256 and BUF_MAX = 4096. -/
def Params.default : Params := { nMax := 256, bufMax := 4096#32 }

end Sys2Proof
end

