-- ==== Sys2Proof/Syntax.lean ====
section
/-! DEFINITION. The command set: one constructor for each of the twelve rows of spec/opcode_table.json (30_encoding.md
R83, R84), and the raw fields of the one format CW64 (R81). -/

namespace Sys2Proof

/-- The fields of a CW64 word, before any check (R81). -/
structure Fields where
  /-- bits [63:60], the opcode -/
  op  : BitVec 4
  /-- bits [59:53], reserved -/
  rsv : BitVec 7
  /-- bits [52:32], a symbol code or a code word index -/
  b   : BitVec 21
  /-- bits [31:0], a frequency, a size, a register number or an index -/
  val : BitVec 32
  deriving DecidableEq, Repr

/-- A command with its operands (R83, R84).  Every operand has exactly the width of the field that carries it and is
unsigned, so every value of it can be encoded. -/
inductive Instr where
  /-- 0x0 NOP (40_control.md R112) -/
  | nop
  /-- 0x1 CLEAR (R113) -/
  | clear
  /-- 0x2 LOAD_SYM sym, freq (41_tree_builder.md R130) -/
  | loadSym (sym : Sym) (freq : Freq)
  /-- 0x3 BUILD (R134) -/
  | build
  /-- 0x4 DERIVE (42_code_table_gen.md R160) -/
  | derive
  /-- 0x5 SET_BUFSIZE size (43_bit_packer.md R180) -/
  | setBufsize (size : Val)
  /-- 0x6 ENCODE sym (R181) -/
  | encode (sym : Sym)
  /-- 0x7 FINISH (R184) -/
  | finish
  /-- 0x8 READ_REG reg (R114) -/
  | readReg (reg : Val)
  /-- 0x9 READ_ALPHA k (R131) -/
  | readAlpha (k : Val)
  /-- 0xA READ_NODE i (R139) -/
  | readNode (i : Val)
  /-- 0xB READ_CODE k, w: `k` in VAL, `w` in B (R89, R164) -/
  | readCode (k : Val) (w : BitVec 21)
  deriving DecidableEq, Repr

/-- The pseudo-instructions, each of which stands for a sequence of commands (R90). -/
inductive Pseudo where
  /-- LOAD_ALPHABET (s0,f0), ... -/
  | loadAlphabet (entries : List (Sym × Freq))
  /-- BUILD_CODES -/
  | buildCodes
  /-- ENCODE_TEXT "c0 c1 ..." -/
  | encodeText (text : List Sym)
  /-- COMPRESS size, (s0,f0)..., "text" -/
  | compress (size : Val) (entries : List (Sym × Freq)) (text : List Sym)
  deriving DecidableEq, Repr

end Sys2Proof
end

