-- ==== Sys2Proof/WellFormed.lean ====
section
/-! DEFINITION. What makes a command word legal before the state is looked at (30_encoding.md R82, R85, R86), and the
ranges of the parameters (00_scope.md R5).  A command (`Instr`) needs no check of its own: each operand has the width
of its field. -/

namespace Sys2Proof

/-- One line of the operand columns of R84's opcode map: does the opcode use B, does it use VAL. -/
structure OperandUse where
  usesB   : Bool
  usesVal : Bool
  deriving DecidableEq, Repr

/-- R84's B and VAL columns, in opcode order, 0x0 to 0xB. -/
def operandUses : List OperandUse :=
  [⟨false, false⟩, ⟨false, false⟩, ⟨true, true⟩, ⟨false, false⟩, ⟨false, false⟩, ⟨false, true⟩]
  ++ [⟨true, false⟩, ⟨false, false⟩, ⟨false, true⟩, ⟨false, true⟩, ⟨false, true⟩, ⟨true, true⟩]

/-- The opcode is one of the twelve defined ones (R85). -/
def Fields.opDefined (f : Fields) : Bool := f.op.toNat < operandUses.length

/-- The reserved field is 0 (R86). -/
def Fields.rsvZero (f : Fields) : Bool := f.rsv == 0#7

/-- B is 0 unless the opcode uses it (R82, R86). -/
def Fields.bFits (f : Fields) : Bool :=
  match operandUses[f.op.toNat]? with
  | some u => u.usesB || f.b == 0#21
  | none => false

/-- VAL is 0 unless the opcode uses it (R82, R86). -/
def Fields.valFits (f : Fields) : Bool :=
  match operandUses[f.op.toNat]? with
  | some u => u.usesVal || f.val == 0#32
  | none => false

/-- The word is legal: R85 and R86 find nothing wrong with it. -/
def Fields.wf (f : Fields) : Bool := f.opDefined && f.rsvZero && f.bFits && f.valFits

/-- The ranges of R5: 1 <= N_MAX <= 32768 and 1 <= BUF_MAX (<= 2^32 - 1 by its width). -/
def Params.wf (p : Params) : Bool := 1 ≤ p.nMax && p.nMax ≤ 32768 && 1#32 ≤ p.bufMax

end Sys2Proof
end

