-- ==== Sys2Proof/Decode.lean ====
section
/-! DEFINITION. Decoding, total on every 64-bit word and refusing by name (30_encoding.md R85 to R88), the encoder
written from the same layout (R81, R83, R84), and R84's match and mask columns as a table.

The channel carries whole 64-bit words (20_memory.md R69), so there is no byte order and no length to decode: one word
is one command (R80). -/

namespace Sys2Proof

/-- Why a word is ILLEGAL.  The block reports all four as ERR_ILLEGAL (R85, R86, R88). -/
inductive Illegal where
  /-- opcode 0xC to 0xF (R85) -/
  | reservedOpcode
  /-- RSV != 0 (R86) -/
  | reservedBits
  /-- B != 0 where the opcode does not use it (R82, R86) -/
  | unusedB
  /-- VAL != 0 where the opcode does not use it (R82, R86) -/
  | unusedVal
  deriving DecidableEq, Repr

/-- The fields of a word (R81). -/
def Fields.ofWord (cw : Word) : Fields where
  op  := cw.extractLsb' 60 4
  rsv := cw.extractLsb' 53 7
  b   := cw.extractLsb' 32 21
  val := cw.extractLsb' 0 32

/-- The word with these fields: `{OP[3:0], RSV[6:0], B[20:0], VAL[31:0]}` (R81). -/
def Fields.word (f : Fields) : Word := f.op ++ f.rsv ++ f.b ++ f.val

/-- `usesB` of R88. -/
def usesB (op : BitVec 4) : Bool := op == 0x2#4 || op == 0x6#4 || op == 0xB#4

/-- `usesVAL` of R88. -/
def usesVal (op : BitVec 4) : Bool :=
  op == 0x2#4 || op == 0x5#4 || op == 0x8#4 || op == 0x9#4 || op == 0xA#4 || op == 0xB#4

/-- `Command(OP, B, VAL)` of R88, by R84's opcode map: none for the reserved opcodes 0xC to 0xF. -/
def command (f : Fields) : Option Instr :=
  match f.op.toNat with
  | 0x0 => some .nop
  | 0x1 => some .clear
  | 0x2 => some (.loadSym f.b f.val)
  | 0x3 => some .build
  | 0x4 => some .derive
  | 0x5 => some (.setBufsize f.val)
  | 0x6 => some (.encode f.b)
  | 0x7 => some .finish
  | 0x8 => some (.readReg f.val)
  | 0x9 => some (.readAlpha f.val)
  | 0xA => some (.readNode f.val)
  | 0xB => some (.readCode f.val f.b)
  | _ => none

/-- `decode` of R88, on the fields: its four checks, in its order. -/
def decodeFields (f : Fields) : Except Illegal Instr :=
  match command f with
  | none => .error .reservedOpcode
  | some i =>
    if f.rsv ≠ 0#7 then .error .reservedBits
    else if f.b ≠ 0#21 ∧ usesB f.op = false then .error .unusedB
    else if f.val ≠ 0#32 ∧ usesVal f.op = false then .error .unusedVal
    else .ok i

/-- `decode(cw)` of R88: every 64-bit word is one of the twelve commands, or ILLEGAL. -/
def decode (cw : Word) : Except Illegal Instr := decodeFields (Fields.ofWord cw)

/-- The fields of a command: its opcode by R84, its operands where R83 puts them, every other field 0. -/
def Instr.fields : Instr → Fields
  | .nop            => ⟨0x0#4, 0#7, 0#21, 0#32⟩
  | .clear          => ⟨0x1#4, 0#7, 0#21, 0#32⟩
  | .loadSym sym fr => ⟨0x2#4, 0#7, sym, fr⟩
  | .build          => ⟨0x3#4, 0#7, 0#21, 0#32⟩
  | .derive         => ⟨0x4#4, 0#7, 0#21, 0#32⟩
  | .setBufsize sz  => ⟨0x5#4, 0#7, 0#21, sz⟩
  | .encode sym     => ⟨0x6#4, 0#7, sym, 0#32⟩
  | .finish         => ⟨0x7#4, 0#7, 0#21, 0#32⟩
  | .readReg reg    => ⟨0x8#4, 0#7, 0#21, reg⟩
  | .readAlpha k    => ⟨0x9#4, 0#7, 0#21, k⟩
  | .readNode i     => ⟨0xA#4, 0#7, 0#21, i⟩
  | .readCode k w   => ⟨0xB#4, 0#7, w, k⟩

/-- The word of a command (R81). -/
def encode (i : Instr) : Word := i.fields.word

/-- The mnemonic of a command, as R84 spells it. -/
def Instr.mnemonic : Instr → String
  | .nop => "NOP"
  | .clear => "CLEAR"
  | .loadSym _ _ => "LOAD_SYM"
  | .build => "BUILD"
  | .derive => "DERIVE"
  | .setBufsize _ => "SET_BUFSIZE"
  | .encode _ => "ENCODE"
  | .finish => "FINISH"
  | .readReg _ => "READ_REG"
  | .readAlpha _ => "READ_ALPHA"
  | .readNode _ => "READ_NODE"
  | .readCode _ _ => "READ_CODE"

/-- One row of R84's match and mask columns. -/
structure OpcodeRow where
  mnemonic : String
  pattern  : Word
  mask     : Word
  deriving DecidableEq, Repr

/-- R84's match and mask columns. -/
def opcodeMap : List OpcodeRow :=
  [⟨"NOP",         0x0000000000000000#64, 0xFFFFFFFFFFFFFFFF#64⟩,
   ⟨"CLEAR",       0x1000000000000000#64, 0xFFFFFFFFFFFFFFFF#64⟩,
   ⟨"LOAD_SYM",    0x2000000000000000#64, 0xFFE0000000000000#64⟩,
   ⟨"BUILD",       0x3000000000000000#64, 0xFFFFFFFFFFFFFFFF#64⟩,
   ⟨"DERIVE",      0x4000000000000000#64, 0xFFFFFFFFFFFFFFFF#64⟩,
   ⟨"SET_BUFSIZE", 0x5000000000000000#64, 0xFFFFFFFF00000000#64⟩]
  ++
  [⟨"ENCODE",      0x6000000000000000#64, 0xFFE00000FFFFFFFF#64⟩,
   ⟨"FINISH",      0x7000000000000000#64, 0xFFFFFFFFFFFFFFFF#64⟩,
   ⟨"READ_REG",    0x8000000000000000#64, 0xFFFFFFFF00000000#64⟩,
   ⟨"READ_ALPHA",  0x9000000000000000#64, 0xFFFFFFFF00000000#64⟩,
   ⟨"READ_NODE",   0xA000000000000000#64, 0xFFFFFFFF00000000#64⟩,
   ⟨"READ_CODE",   0xB000000000000000#64, 0xFFE0000000000000#64⟩]

/-- The word matches the row: `(cw & mask) == match` (R84). -/
def OpcodeRow.selects (r : OpcodeRow) (cw : Word) : Bool := cw &&& r.mask == r.pattern

/-- The command that the decoder reads from a table word: `nbits` bits of `w`, the bits above them 0.  A command is
one 64-bit word (R80), so more than 64 bits are no command. -/
def decodeTableWord (nbits w : Nat) : Option Instr :=
  if nbits ≤ 64 then
    match decode (BitVec.ofNat 64 (w % 2 ^ nbits)) with
    | .ok i => some i
    | .error _ => none
  else none

end Sys2Proof
end

