-- ==== Sys2Proof/Machine/State.lean ====
section
/-! DEFINITION. The state: the record of 10_state.md R20, and beside it what the spec calls the inputs and outputs of
the block (the parameters, the host's events, the sink's acknowledgements, the responses, the writes).  Plain data
throughout; `State.reset` is R42.  The block has no addressable memory, no register file and no stored program (R39,
R60): its four storage arrays are lists that hold exactly the entries that have a value (R26, R27, R31, R35). -/

namespace Sys2Proof.Machine

/-- `PHASE` (R21).  The values 5 and 6 are never taken, so they have no constructor (93_implementation_defined.md V4);
the 3-bit codes are `Phase.code`. -/
inductive Phase where
  | load | built | coded | encoding | done | fault
  deriving DecidableEq, Repr

/-- The error codes of 60_exceptions.md R210; 11 to 15 are never produced (V5).  The 4-bit codes are `ErrCode.code`. -/
inductive ErrCode where
  | errNone | errIllegal | errPhase | errRange | errBufsize | errFull | errDup
  | errEmpty | errNocode | errIo | errInvariant
  deriving DecidableEq, Repr

/-- An entry of `ALPHA`: a symbol and its frequency (R26). -/
structure AlphaEntry where
  sym  : Sym
  freq : Freq
  deriving DecidableEq, Repr

/-- An entry of `NODE`, the tree as an arena (R27). -/
inductive Node where
  | leaf (freq : NodeFreq) (sym : Sym)
  | internal (freq : NodeFreq) (seq left right : NodeIdx)
  deriving DecidableEq, Repr

/-- The sink's answer to one write transaction (20_memory.md R64). -/
inductive Ack where
  | ok | fail
  deriving DecidableEq, Repr

/-- What the sink does with every write after the scripted answers: gives one answer for ever, or never answers again
(the hang of 70_reset_and_hazards.md R247). -/
inductive SinkTail where
  | always (a : Ack)
  | silent
  deriving DecidableEq, Repr

/-- The sink's answers, a free input of the step (R64): first `acks`, oldest first, then `thereafter`. -/
structure AckScript where
  acks       : List Ack
  thereafter : SinkTail
  deriving DecidableEq, Repr

/-- One write transaction that the block has issued: its bytes, earliest first (R68), and the sink's answer; no answer
only for a write that a reset left in flight (R241). -/
structure SinkWrite where
  bytes : List Byte
  ack   : Option Ack
  deriving DecidableEq, Repr

/-- A response (R63). -/
structure Response where
  status : BitVec 16
  d0     : Word
  d1     : Word
  deriving DecidableEq, Repr

/-- What the host can do to the block (R248): send a command word, assert reset between commands (R240), or assert
reset while a command runs (R241).  The last carries the draw of R241: `acks`, the answers that the abandoned command's
writes had received before the reset, and `inFlight`, whether its next write, if it has one, was already issued. -/
inductive HostEvent where
  | command (cw : Word)
  | reset
  | resetDuring (cw : Word) (acks : List Ack) (inFlight : Bool)
  deriving DecidableEq, Repr

/-- The machine.  The first group is R20's record, each element under its own name in the spec's order; `N` is the
length of `alpha`, which holds exactly the entries below N (R26), and so has no field of its own (log entry 2).
The second group is what R20 calls inputs to the step, and the outputs of the block (log entries 1, 3, 4, 8). -/
structure State where
  /-- PHASE (R21) -/
  phase      : Phase
  /-- TREE_VALID (R25) -/
  treeValid  : Bool
  /-- CODES_VALID (R25) -/
  codesValid : Bool
  /-- LAST_ERR (R23) -/
  lastErr    : ErrCode
  /-- FAULT_CAUSE (R24) -/
  faultCause : ErrCode
  /-- ALPHA[0..N-1] in load order; its length is N (R26) -/
  alpha      : List AlphaEntry
  /-- NODE: the entries that hold a value, by index (R27) -/
  node       : List Node
  /-- ROOT (R29) -/
  root       : NodeIdx
  /-- CODE, indexed like ALPHA; no entry while there is no table (R31) -/
  code       : List Code
  /-- BUF_SIZE (R33) -/
  bufSize    : BitVec 32
  /-- ACC (R34) -/
  acc        : Byte
  /-- ACC_N, 0 to 7 (R34) -/
  accN       : Fin 8
  /-- OBUF, earliest byte first (R35) -/
  obuf       : List Byte
  /-- BITS_IN (R36) -/
  bitsIn     : Word
  /-- BYTES_OUT (R36) -/
  bytesOut   : Word
  /-- WRITES (R36) -/
  writes     : Word
  /-- input: N_MAX and BUF_MAX (R5), which no step writes -/
  params     : Params
  /-- input: what the host does from here on, next event first (R62, R66) -/
  host       : List HostEvent
  /-- input: the sink's answers from here on (R64) -/
  ackScript  : AckScript
  /-- the position in the host's command sequence: the commands completed so far (R39) -/
  pos        : Nat
  /-- output: every response issued, oldest first (R63) -/
  responses  : List Response
  /-- output: every write issued to the sink, oldest first (R64, R68) -/
  sink       : List SinkWrite
  /-- how many of `sink`'s writes belong to earlier runs: a run starts at a reset or CLEAR (43_bit_packer.md R188) -/
  runStart   : Nat
  /-- how many of `responses` belong to earlier runs (R188) -/
  runAnswered : Nat
  deriving DecidableEq, Repr

/-- Why the machine stops. -/
inductive Fault where
  /-- The sink never acknowledges the write that `s.obuf` holds, so the block waits for ever, with no response and no
  fault of its own: the hang of 70_reset_and_hazards.md R247 (93_implementation_defined.md U4).  Raised by ENCODE and
  FINISH, only where `ackScript` has no answer left.  `s` is the block as it waits.  SAFE: the hardware has no next
  step there either. -/
  | sinkSilent (s : State)
  deriving DecidableEq, Repr

/-- Why the model gives an instruction no meaning. -/
inductive Refusal where
  /-- Raised by `exec` for an instruction whose meaning is not written yet (none is left).  SAFE. -/
  | notModelled (mnemonic : String)
  deriving DecidableEq, Repr

/-- The machine right after reset (R42, R240) with the parameters `p`, nothing sent to it, nothing written by it, and a
sink that answers every write OK (log entry 3). -/
def State.resetWith (p : Params) : State where
  phase := .load
  treeValid := false
  codesValid := false
  lastErr := .errNone
  faultCause := .errNone
  alpha := []
  node := []
  root := 0#16
  code := []
  bufSize := p.bufMax
  acc := 0#8
  accN := 0
  obuf := []
  bitsIn := 0#64
  bytesOut := 0#64
  writes := 0#64
  params := p
  host := []
  ackScript := { acks := [], thereafter := .always .ok }
  pos := 0
  responses := []
  sink := []
  runStart := 0
  runAnswered := 0

/-- The machine right after reset, with the default parameters of R5. -/
def State.reset : State := State.resetWith Params.default

end Sys2Proof.Machine
end

