-- ==== Sys2Proof/Machine/Flags.lean ====
section
/-! DEFINITION. The status register and what it is assembled from: the codes of the phases (10_state.md R21) and of the
errors (60_exceptions.md R210), STATUS (R22), and the table of which phase admits which command (40_control.md R111). -/

namespace Sys2Proof.Machine

/-- The 3-bit value of a phase (R21). -/
def Phase.code : Phase → BitVec 3
  | .load => 0#3
  | .built => 1#3
  | .coded => 2#3
  | .encoding => 3#3
  | .done => 4#3
  | .fault => 7#3

/-- The 4-bit code of an error (R210). -/
def ErrCode.code : ErrCode → BitVec 4
  | .errNone => 0#4
  | .errIllegal => 1#4
  | .errPhase => 2#4
  | .errRange => 3#4
  | .errBufsize => 4#4
  | .errFull => 5#4
  | .errDup => 6#4
  | .errEmpty => 7#4
  | .errNocode => 8#4
  | .errIo => 9#4
  | .errInvariant => 10#4

/-- `N`, the number of alphabet entries loaded (R26). -/
def State.n (s : State) : Nat := s.alpha.length

/-- `STATUS` (R22): FAULT_CAUSE [15:12], LAST_ERR [11:8], reserved 0 [7:5], CODES_VALID [4], TREE_VALID [3],
PHASE [2:0]. -/
def State.status (s : State) : BitVec 16 :=
  s.faultCause.code ++ s.lastErr.code ++ 0#3 ++ BitVec.ofBool s.codesValid ++ BitVec.ofBool s.treeValid ++ s.phase.code

/-- `Legal(op)`: the state admits the command (R111). -/
def legal (i : Instr) (s : State) : Bool :=
  match i with
  | .nop => true
  | .clear => true
  | .loadSym _ _ => s.phase = .load
  | .build => s.phase = .load
  | .derive => s.phase = .built
  | .setBufsize _ => s.phase = .load ∨ s.phase = .built ∨ s.phase = .coded
  | .encode _ => s.phase = .coded ∨ s.phase = .encoding
  | .finish => s.phase = .coded ∨ s.phase = .encoding
  | .readReg _ => true
  | .readAlpha _ => true
  | .readNode _ => s.treeValid
  | .readCode _ _ => s.codesValid

end Sys2Proof.Machine
end

