-- ==== Sys2Proof/Machine/Operands.lean ====
section
/-! DEFINITION. The operand forms: the sizes derived from the parameters (00_scope.md R5), the register map of READ_REG
(10_state.md R37), and the data layouts of READ_NODE (41_tree_builder.md R139) and READ_CODE (42_code_table_gen.md
R164). -/

namespace Sys2Proof.Machine

/-- `L_MAX`, the longest code in bits: max(1, N_MAX - 1) (R5). -/
def lMax (p : Params) : Nat := max 1 (p.nMax - 1)

/-- `W_MAX`, the 64-bit words of the longest code: ceil(L_MAX / 64) (R5). -/
def wMax (p : Params) : Nat := (lMax p + 63) / 64

/-- `PACK_ACC`: bits [3:0] = ACC_N, bits [15:8] = ACC, others 0 (R37, D39). -/
def packAcc (s : State) : Word := 0#48 ++ s.acc ++ 0#4 ++ BitVec.ofNat 4 s.accN.val

/-- `Reg(reg)`, zero-extended to 64 bits: none for the register numbers 11 and above (R37). -/
def readRegister (reg : Val) (s : State) : Option Word :=
  match reg.toNat with
  | 0 => some (s.status.setWidth 64)
  | 1 => some (s.bufSize.setWidth 64)
  | 2 => some (BitVec.ofNat 64 s.n)
  | 3 => some (s.root.setWidth 64)
  | 4 => some (packAcc s)
  | 5 => some (BitVec.ofNat 64 s.obuf.length)
  | 6 => some s.bitsIn
  | 7 => some s.bytesOut
  | 8 => some s.writes
  | 9 => some (BitVec.ofNat 64 s.params.nMax)
  | 10 => some (s.params.bufMax.setWidth 64)
  | _ => none

/-- The frequency of a node (R28). -/
def Node.freq : Node → NodeFreq
  | .leaf f _ => f
  | .internal f _ _ _ => f

/-- `d1` of READ_NODE: the symbol of a leaf; bit 63, seq, left and right of an internal node (R139). -/
def Node.layout : Node → Word
  | .leaf _ sym => sym.setWidth 64
  | .internal _ seq left right => 1#1 ++ 0#15 ++ seq ++ left ++ right

/-- `d0` of READ_CODE: bit `64w + j` of the code in bit `63 - j`, and 0 past the code's end (R164). -/
def codeWord (c : Code) (w : Nat) : Word := BitVec.ofFnLE fun i : Fin 64 => c.getD (64 * w + (63 - i.val)) false

/-- `d1` of READ_CODE: the symbol in bits [52:32], the code's length in bits [15:0], others 0 (R164). -/
def codeInfo (sym : Sym) (c : Code) : Word := 0#11 ++ sym ++ 0#16 ++ BitVec.ofNat 16 c.length

/-- The `k < N` with `ALPHA[k].sym = sym`, if there is one (R130, R181). -/
def findSym (alpha : List AlphaEntry) (sym : Sym) : Option Nat := alpha.findIdx? fun e => e.sym == sym

end Sys2Proof.Machine
end

