-- ==== Sys2Proof/Machine/Ops.lean ====
section
/-! DEFINITION. The shared operations: the response that ends every command (20_memory.md R63), the two ways an error
ends one (60_exceptions.md R211, R212), what leaves FAULT (R217: CLEAR and reset, which have one effect, R242), the
execution cycle of 40_control.md R110, and the packing primitives AppendBit and FlushBuf (43_bit_packer.md R182,
R183). -/

namespace Sys2Proof.Machine

/-- `respond(d0, d1)`: the command's one response, with STATUS as it stands now (R63), and the step of the position in
the host's sequence that goes with it (R39). -/
def State.respond (s : State) (d0 d1 : Word) : State :=
  { s with responses := s.responses ++ [⟨s.status, d0, d1⟩], pos := s.pos + 1 }

/-- The end of a command that raised nothing: LAST_ERR <- ERR_NONE, then its response (R110). -/
def State.complete (s : State) (d0 d1 : Word) : State :=
  { s with lastErr := .errNone }.respond d0 d1

/-- `Reject(E)`: nothing but LAST_ERR changes (R211). -/
def State.takeReject (s : State) (e : ErrCode) : State :=
  { s with lastErr := e }.respond 0#64 0#64

/-- `Fatal(E)`, the entry into the fault state: PHASE, FAULT_CAUSE and LAST_ERR are written, every other element keeps
the value it had at the raise (R212).  No vector, no saved position, no handler (R214). -/
def State.takeFatal (s : State) (e : ErrCode) : State :=
  { s with phase := .fault, faultCause := e, lastErr := e }.respond 0#64 0#64

/-- `state <- ResetState` (R42): the effect of the reset input (R240) and of CLEAR (R113, R242), and the only way out of
FAULT (R217).  The inputs and outputs of the block are no state of it and stay, but for the start of a new run
(R188). -/
def State.clearBlock (s : State) : State :=
  { s with
    phase := .load
    treeValid := false
    codesValid := false
    lastErr := .errNone
    faultCause := .errNone
    alpha := []
    node := []
    root := 0#16
    code := []
    bufSize := s.params.bufMax
    acc := 0#8
    accN := 0
    obuf := []
    bitsIn := 0#64
    bytesOut := 0#64
    writes := 0#64
    runStart := s.sink.length
    runAnswered := s.responses.length }

/-- How the body of a command ends: it raises nothing, it raises Reject or Fatal (R110), or the sink never answers one
of its writes (R247).  A state here is the one the body has built up to that point (R215). -/
inductive BodyResult where
  | done (s : State) (d0 d1 : Word)
  | reject (e : ErrCode)
  | fatal (e : ErrCode) (s : State)
  | hang (s : State)

/-- The end of the cycle of R110: one response whatever the body's outcome (R63); a hang has none (R247). -/
def finishCommand (s : State) : BodyResult → Host.Outcome State Fault Refusal
  | .done t d0 d1 => .next (t.complete d0 d1)
  | .reject e => .next (s.takeReject e)
  | .fatal e t => .next (t.takeFatal e)
  | .hang t => .fault (.sinkSilent t)

/-- The cycle of R110 after decoding: the phase check of R111 comes before the body and its operand checks (R213). -/
def runCommand (i : Instr) (s : State) (body : BodyResult) : Host.Outcome State Fault Refusal :=
  if legal i s then finishCommand s body else .next (s.takeReject .errPhase)

/-- An ILLEGAL word ends in ERR_ILLEGAL before any other check (R86, R110, R213). -/
def illegalWord (s : State) : Host.Outcome State Fault Refusal := .next (s.takeReject .errIllegal)

/-- The sink's answer to the next write and the answers after it; none if it never answers (R64, R247). -/
def AckScript.answer (a : AckScript) : Option (Ack × AckScript) :=
  match a.acks, a.thereafter with
  | x :: rest, tail => some (x, { acks := rest, thereafter := tail })
  | [], .always x => some (x, a)
  | [], .silent => none

/-- How a packing primitive ends: it goes on, or a sink write is acknowledged FAIL, or it is never acknowledged. -/
inductive PackResult where
  | ok (s : State)
  | ioFail (s : State)
  | hang (s : State)

/-- `FlushBuf()`: one sink write of the whole output buffer (R183). -/
def flushBuf (s : State) : PackResult :=
  match s.ackScript.answer with
  | none => .hang s
  | some (.fail, rest) => .ioFail { s with ackScript := rest, sink := s.sink ++ [⟨s.obuf, some .fail⟩] }
  | some (.ok, rest) =>
    .ok { s with
      ackScript := rest
      sink := s.sink ++ [⟨s.obuf, some .ok⟩]
      bytesOut := s.bytesOut + BitVec.ofNat 64 s.obuf.length
      writes := s.writes + 1#64
      obuf := [] }

/-- `((ACC << 1) | b)[7:0]` (R182). -/
def shiftIn (acc : Byte) (b : Bool) : Byte := (acc <<< 1) ||| (BitVec.ofBool b).setWidth 8

/-- `AppendBit(b)` (R182). -/
def appendBit (s : State) (b : Bool) : PackResult :=
  if s.accN = 7 then
    let t := { s with
      acc := 0#8
      accN := 0
      bitsIn := s.bitsIn + 1#64
      obuf := s.obuf ++ [shiftIn s.acc b] }
    if t.obuf.length = t.bufSize.toNat then flushBuf t else .ok t
  else
    .ok { s with acc := shiftIn s.acc b, accN := s.accN + 1, bitsIn := s.bitsIn + 1#64 }

/-- `for b in CODE[k]: AppendBit(b)`, first bit first, ending at the first bit that raises (R181, R215). -/
def appendBits (s : State) : Code → PackResult
  | [] => .ok s
  | b :: rest =>
    match appendBit s b with
    | .ok t => appendBits t rest
    | .ioFail t => .ioFail t
    | .hang t => .hang t

/-- The pad of FINISH: a partial byte is completed with trailing zero bits and finalized (R184). -/
def padLastByte (s : State) : State :=
  if s.accN = 0 then s
  else { s with obuf := s.obuf ++ [s.acc <<< (8 - s.accN.val)], acc := 0#8, accN := 0 }

end Sys2Proof.Machine
end

