-- ==== Sys2Proof/Machine/BitPacker.lean ====
section
/-! DEFINITION. The BitPacker: SET_BUFSIZE, ENCODE and FINISH (43_bit_packer.md R180 to R190). -/

namespace Sys2Proof.Machine

/-- `Body(SET_BUFSIZE size)` (R180). -/
def bodySetBufsize (size : Val) (s : State) : BodyResult :=
  if size = 0#32 ∨ s.params.bufMax < size then .reject .errBufsize
  else .done { s with bufSize := size } 0#64 0#64

/-- SET_BUFSIZE size (R180). -/
def execSetBufsize (size : Val) (s : State) : Host.Outcome State Fault Refusal :=
  runCommand (.setBufsize size) s (bodySetBufsize size s)

/-- What a packing primitive's outcome is for the command that calls it: `t` goes on to the end of the body. -/
def packed (r : PackResult) (atEnd : State → State) : BodyResult :=
  match r with
  | .ok t => .done (atEnd t) 0#64 0#64
  | .ioFail t => .fatal .errIo t
  | .hang t => .hang t

/-- The code-table entry of a symbol: the code of the entry that holds it (R181, R210's cause of ERR_NOCODE). -/
def codeOf (s : State) (sym : Sym) : Option Code :=
  match findSym s.alpha sym with
  | none => none
  | some k => s.code[k]?

/-- `Body(ENCODE sym)` (R181). -/
def bodyEncode (sym : Sym) (s : State) : BodyResult :=
  match codeOf s sym with
  | none => .fatal .errNocode s
  | some c => packed (appendBits { s with phase := .encoding } c) id

/-- ENCODE sym (R181). -/
def execEncode (sym : Sym) (s : State) : Host.Outcome State Fault Refusal :=
  runCommand (.encode sym) s (bodyEncode sym s)

/-- The write of FINISH: what remains, if anything does, so that no write is empty (R183, R184, D16). -/
def flushRest (s : State) : PackResult :=
  if s.obuf = [] then .ok s else flushBuf s

/-- `Body(FINISH)` (R184). -/
def bodyFinish (s : State) : BodyResult :=
  packed (flushRest (padLastByte s)) fun t => { t with phase := .done }

/-- FINISH (R184). -/
def execFinish (s : State) : Host.Outcome State Fault Refusal :=
  runCommand .finish s (bodyFinish s)

end Sys2Proof.Machine
end

