-- ==== Sys2Proof/Machine/CodeTable.lean ====
section
/-! DEFINITION. The CodeTableGenerator: DERIVE and READ_CODE (42_code_table_gen.md R160 to R164). -/

namespace Sys2Proof.Machine

/-- The traversal of DERIVE: the stack S of nodes to visit with their paths, next one first, and CODE so far (R160).
`.error` is the structural check of R163, with CODE as the visits before it left it.  A tree visits each node of the
arena once, so `fuel` = the number of nodes is enough; an arena on which it is not, or on which a child index names no
node, is no tree, and fails the same check (log entry 6). -/
def walk (nodes : List Node) (n : Nat) : Nat → List (Nat × Code) → List Code → Except (List Code) (List Code)
  | _, [], table => .ok table
  | 0, _ :: _, table => .error table
  | fuel + 1, (i, p) :: rest, table =>
    match nodes[i]? with
    | none => .error table
    | some (.leaf _ _) => if p = [] ∨ n ≤ i then .error table else walk nodes n fuel rest (table.set i p)
    | some (.internal _ _ left right) =>
      walk nodes n fuel ((left.toNat, p ++ [false]) :: (right.toNat, p ++ [true]) :: rest) table

/-- CODE as DERIVE makes it for N >= 2: the walk from ROOT, over a table that holds no code yet (R160). -/
def deriveCodes (nodes : List Node) (n root : Nat) : Except (List Code) (List Code) :=
  walk nodes n nodes.length [(root, [])] (List.replicate n [])

/-- `Body(DERIVE)`: one symbol gets the one-bit code 0 (R161), more get their paths (R160). -/
def bodyDerive (s : State) : BodyResult :=
  if s.n = 1 then .done { s with code := [[false]], codesValid := true, phase := .coded } 0#64 0#64
  else
    match deriveCodes s.node s.n s.root.toNat with
    | .error table => .fatal .errInvariant { s with code := table }
    | .ok table => .done { s with code := table, codesValid := true, phase := .coded } 0#64 0#64

/-- DERIVE (R160). -/
def execDerive (s : State) : Host.Outcome State Fault Refusal :=
  runCommand .derive s (bodyDerive s)

/-- `Body(READ_CODE k, w)` (R164). -/
def bodyReadCode (k : Val) (w : BitVec 21) (s : State) : BodyResult :=
  if s.n ≤ k.toNat ∨ wMax s.params ≤ w.toNat then .reject .errRange
  else
    match s.alpha[k.toNat]?, s.code[k.toNat]? with
    | some e, some c => .done s (codeWord c w.toNat) (codeInfo e.sym c)
    | _, _ => .reject .errRange

/-- READ_CODE k, w (R164). -/
def execReadCode (k : Val) (w : BitVec 21) (s : State) : Host.Outcome State Fault Refusal :=
  runCommand (.readCode k w) s (bodyReadCode k w s)

end Sys2Proof.Machine
end

