-- ==== Sys2Proof/Machine/Control.lean ====
section
/-! DEFINITION. The control commands NOP, CLEAR and READ_REG (40_control.md R112 to R114). -/

namespace Sys2Proof.Machine

/-- NOP (R112). -/
def execNop (s : State) : Host.Outcome State Fault Refusal :=
  runCommand .nop s (.done s 0#64 0#64)

/-- CLEAR (R113). -/
def execClear (s : State) : Host.Outcome State Fault Refusal :=
  runCommand .clear s (.done s.clearBlock 0#64 0#64)

/-- `Body(READ_REG reg)` (R114): LAST_ERR is 0 before the read, so that register 0 is the STATUS after the command. -/
def bodyReadReg (reg : Val) (s : State) : BodyResult :=
  match readRegister reg { s with lastErr := .errNone } with
  | none => .reject .errRange
  | some d => .done s d 0#64

/-- READ_REG reg (R114). -/
def execReadReg (reg : Val) (s : State) : Host.Outcome State Fault Refusal :=
  runCommand (.readReg reg) s (bodyReadReg reg s)

end Sys2Proof.Machine
end

