-- ==== Sys2Proof/Machine/TreeBuilder.lean ====
section
/-! DEFINITION. The TreeBuilder: LOAD_SYM, READ_ALPHA, BUILD and READ_NODE (41_tree_builder.md R130 to R141). -/

namespace Sys2Proof.Machine

/-- `Body(LOAD_SYM sym, freq)`: FULL is tested before DUP (R130). -/
def bodyLoadSym (sym : Sym) (freq : Freq) (s : State) : BodyResult :=
  if s.n = s.params.nMax then .reject .errFull
  else if (findSym s.alpha sym).isSome then .reject .errDup
  else .done { s with alpha := s.alpha ++ [⟨sym, freq⟩] } 0#64 0#64

/-- LOAD_SYM sym, freq (R130). -/
def execLoadSym (sym : Sym) (freq : Freq) (s : State) : Host.Outcome State Fault Refusal :=
  runCommand (.loadSym sym freq) s (bodyLoadSym sym freq s)

/-- `Body(READ_ALPHA k)`: an entry at or above N holds no value, and its read is rejected (R131, R26). -/
def bodyReadAlpha (k : Val) (s : State) : BodyResult :=
  match s.alpha[k.toNat]? with
  | none => .reject .errRange
  | some e => .done s (e.freq.setWidth 64) (e.sym.setWidth 64)

/-- READ_ALPHA k (R131). -/
def execReadAlpha (k : Val) (s : State) : Host.Outcome State Fault Refusal :=
  runCommand (.readAlpha k) s (bodyReadAlpha k s)

/-- `Before(x, y)`, "x sorts before y": by frequency, then leaf before internal, then symbol or sequence id, all
unsigned (R132). -/
def before (x y : Node) : Bool :=
  x.freq < y.freq || (x.freq == y.freq &&
    match x, y with
    | .leaf _ _, .internal _ _ _ _ => true
    | .leaf _ a, .leaf _ b => a < b
    | .internal _ a _ _, .internal _ b _ _ => a < b
    | .internal _ _ _ _, .leaf _ _ => false)

/-- `Before(NODE[i], NODE[j])` on node indices. -/
def beforeAt (nodes : List Node) (i j : Nat) : Bool :=
  match nodes[i]?, nodes[j]? with
  | some x, some y => before x y
  | _, _ => false

/-- The Before-minimal index of a queue (R133: it is unique, so the way it is found does not matter). -/
def minIndex (nodes : List Node) : List Nat → Option Nat
  | [] => none
  | i :: q => some (q.foldl (fun m j => if beforeAt nodes j m then j else m) i)

/-- Take the Before-minimal index out of the queue: the index, and the queue without it (R134). -/
def extractMin (nodes : List Node) (q : List Nat) : Option (Nat × List Nat) :=
  match minIndex nodes q with
  | none => none
  | some a => some (a, q.erase a)

/-- The frequency of the node at an index. -/
def freqAt (nodes : List Node) (i : Nat) : NodeFreq :=
  match nodes[i]? with
  | some x => x.freq
  | none => 0#48

/-- The leaves, one for each alphabet entry, in load order (R134). -/
def leaves (alpha : List AlphaEntry) : List Node :=
  alpha.map fun e => .leaf (e.freq.setWidth 48) e.sym

/-- The merges of BUILD that remain, the next sequence id, NODE so far, and the queue Q (R134).  `.error` is the
structural check of R136, with NODE as the merges before it left it. -/
def mergeLoop : Nat → Nat → List Node → List Nat → Except (List Node) (List Node)
  | 0, _, nodes, _ => .ok nodes
  | m + 1, seq, nodes, q =>
    match extractMin nodes q with
    | none => .error nodes
    | some (a, q1) =>
      match extractMin nodes q1 with
      | none => .error nodes
      | some (b, q2) =>
        mergeLoop m (seq + 1)
          (nodes ++ [.internal (freqAt nodes a + freqAt nodes b) (BitVec.ofNat 16 seq) (BitVec.ofNat 16 a)
            (BitVec.ofNat 16 b)])
          (nodes.length :: q2)

/-- NODE as BUILD makes it from ALPHA: N leaves, then N - 1 merges from the queue of all leaves (R134, R135). -/
def buildNodes (alpha : List AlphaEntry) : Except (List Node) (List Node) :=
  mergeLoop (alpha.length - 1) 0 (leaves alpha) (List.range alpha.length)

/-- `Body(BUILD)` (R134). -/
def bodyBuild (s : State) : BodyResult :=
  if s.n = 0 then .fatal .errEmpty s
  else
    match buildNodes s.alpha with
    | .error nodes => .fatal .errInvariant { s with node := nodes }
    | .ok nodes =>
      .done { s with node := nodes, root := BitVec.ofNat 16 (2 * s.n - 2), treeValid := true, phase := .built } 0#64 0#64

/-- BUILD (R134). -/
def execBuild (s : State) : Host.Outcome State Fault Refusal :=
  runCommand .build s (bodyBuild s)

/-- `Body(READ_NODE i)` (R139).  An entry that holds no value is not readable (93_implementation_defined.md U5). -/
def bodyReadNode (i : Val) (s : State) : BodyResult :=
  if 2 * s.n - 1 ≤ i.toNat then .reject .errRange
  else
    match s.node[i.toNat]? with
    | none => .reject .errRange
    | some x => .done s (x.freq.setWidth 64) x.layout

/-- READ_NODE i (R139). -/
def execReadNode (i : Val) (s : State) : Host.Outcome State Fault Refusal :=
  runCommand (.readNode i) s (bodyReadNode i s)

end Sys2Proof.Machine
end

