-- ==== Sys2Proof/Machine/Dispatch.lean ====
section
/-! DEFINITION. One arm for each constructor of `Instr`: its meaning. -/

namespace Sys2Proof.Machine

def exec (i : Instr) (s : State) : Host.Outcome State Fault Refusal :=
  match i with
  | .nop => Sys2Proof.Machine.execNop s
  | .clear => Sys2Proof.Machine.execClear s
  | .loadSym sym freq => Sys2Proof.Machine.execLoadSym sym freq s
  | .build => Sys2Proof.Machine.execBuild s
  | .derive => Sys2Proof.Machine.execDerive s
  | .setBufsize size => Sys2Proof.Machine.execSetBufsize size s
  | .encode sym => Sys2Proof.Machine.execEncode sym s
  | .finish => Sys2Proof.Machine.execFinish s
  | .readReg reg => Sys2Proof.Machine.execReadReg reg s
  | .readAlpha k => Sys2Proof.Machine.execReadAlpha k s
  | .readNode node => Sys2Proof.Machine.execReadNode node s
  | .readCode k w => Sys2Proof.Machine.execReadCode k w s

end Sys2Proof.Machine
end

