-- ==== Sys2Proof/Machine/Events.lean ====
section
/-! DEFINITION. What the host can do to the block (70_reset_and_hazards.md R248): a command word (40_control.md R110),
the reset input between commands (R240), and reset while a command runs (R241). -/

namespace Sys2Proof.Machine

/-- `Exec(cw)` (R110): decode, then the command; ILLEGAL is a reject (R86). -/
def runWord (cw : Word) (s : State) : Host.Outcome State Fault Refusal :=
  match decode cw with
  | .error _ => illegalWord s
  | .ok i => exec i s

/-- The writes a command had issued when a reset abandoned it: those answered, and the one in flight if it was issued
(R241).  The command is run against the answers it had received, and a sink that is silent after them. -/
def abandonedSink (cw : Word) (acks : List Ack) (inFlight : Bool) (s : State) : List SinkWrite :=
  match runWord cw { s with ackScript := { acks := acks, thereafter := .silent } } with
  | .next t => t.sink
  | .fault (.sinkSilent t) => if inFlight then t.sink ++ [⟨t.obuf, none⟩] else t.sink
  | .refused _ => s.sink

/-- Reset while the command `cw` runs: no response, the writes issued stay issued, the state is that of reset (R241). -/
def resetDuring (cw : Word) (acks : List Ack) (inFlight : Bool) (s : State) : State :=
  { s with sink := abandonedSink cw acks inFlight s }.clearBlock

/-- One event of the host (R248). -/
def runEvent (e : HostEvent) (s : State) : Host.Outcome State Fault Refusal :=
  match e with
  | .command cw => runWord cw s
  | .reset => .next s.clearBlock
  | .resetDuring cw acks inFlight => .next (resetDuring cw acks inFlight s)

/-- Take the host's next event and run it; with none, the block waits and keeps all state (R214, R220, R240). -/
def takeEvent (s : State) : Host.Outcome State Fault Refusal :=
  match s.host with
  | [] => .next s
  | e :: rest => runEvent e { s with host := rest }

/-- The host sends a command word next. -/
def sendNext (cw : Word) (s : State) : State := { s with host := .command cw :: s.host }

end Sys2Proof.Machine
end

