-- ==== Sys2Proof/Machine/Step.lean ====
section
/-! DEFINITION. The step: one event of the host, taken only when the previous command has its response (20_memory.md
R62). -/

namespace Sys2Proof.Machine

/-- One step of the machine. -/
def step (s : State) : Host.Outcome State Fault Refusal := takeEvent s

/-- The state in which the host sends this word next: the block stores no program and fetches from no address (R39,
R60), so a command "comes to be fetched" by the host's sending it (log entry 4). -/
def State.withFetchWord (s : State) (nbits w : Nat) : State := sendNext (BitVec.ofNat 64 (w % 2 ^ nbits)) s

end Sys2Proof.Machine
end

