-- ==== Sys2Proof/Safety.lean ====
section
/-! DEFINITION. The terms of the statements: the bits and bytes of a run (20_memory.md R65, R67, R68; 43_bit_packer.md
R186, R188), and the well-formedness predicate of the state, 10_state.md R43, with what R27 to R36 add to it. -/

namespace Sys2Proof.Machine

/-! ### The output of a run -/

/-- The bytes of the writes acknowledged OK, in issue order (R65, R68). -/
def okBytes (writes : List SinkWrite) : List Byte :=
  (writes.filter fun w => w.ack = some .ok).flatMap SinkWrite.bytes

/-- How many writes were acknowledged OK. -/
def okCount (writes : List SinkWrite) : Nat := writes.countP fun w => w.ack = some .ok

/-- The writes of the current run: those since the last reset or CLEAR (R188). -/
def State.runWrites (s : State) : List SinkWrite := s.sink.drop s.runStart

/-- The output file of the current run: the bytes of its writes acknowledged OK (R65). -/
def State.output (s : State) : List Byte := okBytes s.runWrites

/-- What the sink may hold of a run: the bytes of the OK writes, and after a write that failed or was left in flight any
bytes that begin with them (R65, R241; 93_implementation_defined.md U1, U2). -/
def SinkMayHold (writes : List SinkWrite) (contents : List Byte) : Prop :=
  okBytes writes <+: contents ∧ ((∀ w ∈ writes, w.ack = some .ok) → contents = okBytes writes)

/-- The bits of a byte in stream order: the most significant bit first (R67). -/
def byteBits (b : Byte) : List Bool := (List.range 8).map fun j => b.getLsbD (7 - j)

/-- The bits of bytes in stream order (R68). -/
def bytesBits (bs : List Byte) : List Bool := bs.flatMap byteBits

/-- The bits in ACC, earliest first: bit ACC_N - 1 down to bit 0 (R34). -/
def accBits (acc : Byte) (n : Nat) : List Bool := (List.range n).map fun j => acc.getLsbD (n - 1 - j)

/-- The logical bitstream of the current run so far: what the sink acknowledged, then what OBUF and ACC still hold. -/
def State.stream (s : State) : List Bool :=
  bytesBits s.output ++ bytesBits s.obuf ++ accBits s.acc s.accN.val

/-- The responses of the current run: those since the last reset or CLEAR, the response of that CLEAR among them (R188).
-/
def State.runResponses (s : State) : List Response := s.responses.drop s.runAnswered

/-- The last response of the current run shows this phase; after a reset there is none yet (R188). -/
def State.runShows (s : State) (p : Phase) : Bool :=
  match s.runResponses.getLast? with
  | some r => r.status.extractLsb' 0 3 == p.code
  | none => false

/-- A run has succeeded exactly when its last response shows PHASE = DONE (R188). -/
def State.runSucceeded (s : State) : Bool := s.runShows .done

/-- A run has failed when its last response shows FAULT (R188). -/
def State.runFailed (s : State) : Bool := s.runShows .fault

/-! ### Commands and the sink's answers -/

/-- The commands whose completion sets data words: READ_REG, READ_ALPHA, READ_NODE, READ_CODE (R63). -/
def isRead : Instr → Bool
  | .readReg _ => true
  | .readAlpha _ => true
  | .readNode _ => true
  | .readCode _ _ => true
  | .nop => false
  | .clear => false
  | .loadSym _ _ => false
  | .build => false
  | .derive => false
  | .setBufsize _ => false
  | .encode _ => false
  | .finish => false

/-- Every answer of the sink from here on is OK (one of the free inputs of R64). -/
def AckScript.allOk (a : AckScript) : Bool := a.acks.all (· == .ok) && a.thereafter == .always .ok

/-- Commands one after another, stopping at the first that has no response (R62). -/
def runCommands : List Instr → State → Host.Outcome State Fault Refusal
  | [], s => .next s
  | i :: rest, s =>
    match exec i s with
    | .next t => runCommands rest t
    | .fault f => .fault f
    | .refused r => .refused r

/-- `t` is `s` but for LAST_ERR, the response and the position: the command had no effect (R211, R72). -/
def OnlyLastErr (s t : State) : Prop :=
  t = { s with lastErr := t.lastErr, responses := t.responses, pos := t.pos }

/-! ### The invariants between commands (R43) -/

/-- The child indices of a node. -/
def Node.children : Node → List Nat
  | .leaf _ _ => []
  | .internal _ _ left right => [left.toNat, right.toNat]

/-- The child indices of all nodes. -/
def childList (nodes : List Node) : List Nat := nodes.flatMap Node.children

/-- The node that a path leads to from node `i`: 0 steps to the left child, 1 to the right (R160). -/
def follow (nodes : List Node) (i : Nat) : Code → Option Nat
  | [] => some i
  | b :: p =>
    match nodes[i]? with
    | some (.internal _ _ left right) => follow nodes (if b then right.toNat else left.toNat) p
    | _ => none

/-- NODE is the tree of ALPHA (R27, R28, R30). -/
structure TreeWf (alpha : List AlphaEntry) (nodes : List Node) : Prop where
  /-- entries 0 to 2N - 2 hold values, and no others -/
  size : nodes.length = 2 * alpha.length - 1
  /-- entry i < N is the leaf of alphabet entry i -/
  leaf : ∀ (i : Nat) (e : AlphaEntry), alpha[i]? = some e → nodes[i]? = some (Node.leaf (e.freq.setWidth 48) e.sym)
  /-- entry N + m is the internal node with sequence id m; its children have smaller indices, and its frequency is the
  sum of theirs, with no wrap -/
  merge : ∀ m : Nat, m + 1 < alpha.length → ∃ f l r,
    nodes[alpha.length + m]? = some (Node.internal f (BitVec.ofNat 16 m) l r) ∧
    l.toNat < alpha.length + m ∧ r.toNat < alpha.length + m ∧
    f.toNat = (freqAt nodes l.toNat).toNat + (freqAt nodes r.toNat).toNat
  /-- every node but the last is the child of exactly one internal node, once -/
  parent : ∀ i, i + 1 < nodes.length → (childList nodes).count i = 1
  /-- the last node, the root, is the child of none -/
  rootFree : (childList nodes).count (nodes.length - 1) = 0

/-- At the moment node `k` is made, node `i` is in the queue: it exists and no merge has taken it yet (R134). -/
def InQueue (nodes : List Node) (k i : Nat) : Prop := i < k ∧ (childList (nodes.take k)).count i = 0

/-- The sum of all frequencies loaded (R137). -/
def freqTotal (alpha : List AlphaEntry) : Nat := (alpha.map fun e => e.freq.toNat).sum

/-- CODE is a code table of ALPHA (R31, R32). -/
structure CodeWf (p : Params) (n : Nat) (code : List Code) : Prop where
  /-- one entry for each alphabet entry -/
  size : code.length = n
  /-- each code is 1 to L_MAX bits long -/
  len : ∀ c ∈ code, 1 ≤ c.length ∧ c.length ≤ lMax p
  /-- no code begins another -/
  free : code.Pairwise fun c d => ¬ c <+: d ∧ ¬ d <+: c

/-- The counters agree with the packer while no byte has been padded (R36), modulo 2^64. -/
def State.countsExact (s : State) : Prop :=
  8#64 * (s.bytesOut + BitVec.ofNat 64 s.obuf.length) + BitVec.ofNat 64 s.accN.val = s.bitsIn

/-- The counters agree with the packer after FINISH has padded: the bytes are the bits rounded up to whole bytes (R36),
modulo 2^64. -/
def State.countsPadded (s : State) : Prop :=
  s.accN = 0 ∧ ∃ pad < 8, 8#64 * (s.bytesOut + BitVec.ofNat 64 s.obuf.length) = s.bitsIn + BitVec.ofNat 64 pad

/-- The parameters are in range, the alphabet fits them and has no duplicate, BUF_SIZE is in range (R5, R43 item 1,
R33). -/
structure AlphaInv (s : State) : Prop where
  params : s.params.wf = true
  fits : s.n ≤ s.params.nMax
  distinct : (s.alpha.map AlphaEntry.sym).Nodup
  bufSize : 1#32 ≤ s.bufSize ∧ s.bufSize ≤ s.params.bufMax

/-- The flags and the fault cause go with the phase (R43 items 2, 3 and 9); the cause of a fault is ERR_EMPTY, which no
tree precedes, or ERR_NOCODE or ERR_IO, which a code table precedes, and never ERR_INVARIANT (R115, R224). -/
structure PhaseInv (s : State) : Prop where
  codes : s.codesValid = true ↔
    s.phase = .coded ∨ s.phase = .encoding ∨ s.phase = .done ∨ (s.phase = .fault ∧ s.faultCause ≠ .errEmpty)
  tree : s.treeValid = true ↔ s.phase = .built ∨ s.codesValid = true
  cause : s.faultCause ≠ .errNone ↔ s.phase = .fault
  causes : s.phase = .fault → s.faultCause = .errEmpty ∨ s.faultCause = .errNocode ∨ s.faultCause = .errIo

/-- The tree and the code table are well formed while they are valid, and hold nothing while they are not (R29, R43
items 4 and 5). -/
structure StorageInv (s : State) : Prop where
  tree : s.treeValid = true → 1 ≤ s.n ∧ TreeWf s.alpha s.node ∧ s.root.toNat = 2 * s.n - 2
  noTree : s.treeValid = false → s.node = [] ∧ s.root = 0#16
  codes : s.codesValid = true → CodeWf s.params s.n s.code
  noCodes : s.codesValid = false → s.code = []

/-- The packer (R34, R35, R36, R43 items 6, 7 and 8). -/
structure PackInv (s : State) : Prop where
  acc : s.acc.toNat < 2 ^ s.accN.val
  room : s.phase ≠ .fault → s.obuf.length < s.bufSize.toNat
  full : s.obuf.length ≤ s.bufSize.toNat
  unused : s.phase = .load ∨ s.phase = .built ∨ s.phase = .coded ∨ s.faultCause = .errEmpty →
    s.accN = 0 ∧ s.obuf = [] ∧ s.bitsIn = 0#64 ∧ s.bytesOut = 0#64 ∧ s.writes = 0#64 ∧ s.runWrites = []
  done : s.phase = .done → s.accN = 0 ∧ s.obuf = []
  counted : s.phase ≠ .done → s.phase ≠ .fault → s.countsExact
  padded : s.phase = .done → s.countsPadded
  fault : s.phase = .fault → s.countsExact ∨ s.countsPadded

/-- The counters and the position agree with what the block has sent out (R36, R39, R63), and only a run in FAULT has a
write that was not acknowledged OK (R188, R212). -/
structure LogInv (s : State) : Prop where
  run : s.runStart ≤ s.sink.length
  clean : s.phase ≠ .fault → ∀ w ∈ s.runWrites, w.ack = some .ok
  bytes : s.bytesOut = BitVec.ofNat 64 s.output.length
  writes : s.writes = BitVec.ofNat 64 (okCount s.runWrites)
  responses : s.pos = s.responses.length

/-- What R43 says of the state, and what goes with it. -/
structure BlockInv (s : State) : Prop where
  alpha : AlphaInv s
  phase : PhaseInv s
  storage : StorageInv s
  pack : PackInv s
  log : LogInv s

/-- The last response of the run carries STATUS as it stands (R63), and before the run's first response STATUS is that
of reset (R42). -/
structure RunInv (s : State) : Prop where
  begins : s.runAnswered ≤ s.responses.length
  shows : ∀ r, s.runResponses.getLast? = some r → r.status = s.status
  quiet : s.runResponses = [] → s.status = 0#16

/-- What holds after every command and after reset (R43). -/
structure Inv (s : State) : Prop extends BlockInv s where
  run : RunInv s

end Sys2Proof.Machine
end

