-- ==== Sys2Proof/Certificates/Slice0/Obligations.lean ====
section
/-! DEFINITION. The statements for the provers.  Each docstring says which rule of spec/ the statement formalises.
`s.complete d0 d1`, `s.takeReject e` and `s.takeFatal e` are the three ends of a command; what each is, element by
element, is the statement `TheThreeEndsOfACommand`. -/

open Sys2Proof Sys2Proof.Machine

/-! ### Encoding -/

/-- The words of R91's table and of 95_test_vectors.md 2.1 decode to the commands written beside them. -/
def Obligations.SpecWordsDecode : Prop :=
  decode 0x0000000000000000#64 = .ok .nop ∧
  decode 0x1000000000000000#64 = .ok .clear ∧
  decode 0x2000006100000019#64 = .ok (.loadSym 0x61#21 25#32) ∧
  decode 0x201FFFFFFFFFFFFF#64 = .ok (.loadSym 0x1FFFFF#21 0xFFFFFFFF#32) ∧
  decode 0x5000000000001000#64 = .ok (.setBufsize 4096#32) ∧
  decode 0x6000007400000000#64 = .ok (.encode 0x74#21) ∧
  decode 0x9000000000000002#64 = .ok (.readAlpha 2#32) ∧
  decode 0xB000000400000002#64 = .ok (.readCode 2#32 4#21) ∧
  decode 0xC000000000000000#64 = .error .reservedOpcode ∧
  decode 0x0020000000000000#64 = .error .reservedBits ∧
  decode 0x5000000100000007#64 = .error .unusedB ∧
  decode 0x6000006100000001#64 = .error .unusedVal

/-- Every command, with every value of every operand, is what its own word decodes to (R81, R83, R84, R88). -/
def Obligations.DecodeOfEncodeIsTheCommand : Prop :=
  ∀ i : Instr, decode (encode i) = .ok i

/-- A word that decodes to a command is the one word of that command: there is no second spelling (R80, R82, R87). -/
def Obligations.EncodeOfDecodeIsTheWord : Prop :=
  ∀ (cw : Word) (i : Instr), decode cw = .ok i → encode i = cw

/-- R84: the match and mask columns select each command exactly, with its operands where R83 says they are; the
opcodes 0xC to 0xF select none. -/
def Obligations.MatchAndMaskSelectTheCommand : Prop :=
  ∀ cw : Word,
    (decode cw = .ok .nop ↔ cw &&& 0xFFFFFFFFFFFFFFFF#64 = 0x0000000000000000#64) ∧
    (decode cw = .ok .clear ↔ cw &&& 0xFFFFFFFFFFFFFFFF#64 = 0x1000000000000000#64) ∧
    (decode cw = .ok (.loadSym (cw.extractLsb' 32 21) (cw.extractLsb' 0 32)) ↔
      cw &&& 0xFFE0000000000000#64 = 0x2000000000000000#64) ∧
    (decode cw = .ok .build ↔ cw &&& 0xFFFFFFFFFFFFFFFF#64 = 0x3000000000000000#64) ∧
    (decode cw = .ok .derive ↔ cw &&& 0xFFFFFFFFFFFFFFFF#64 = 0x4000000000000000#64) ∧
    (decode cw = .ok (.setBufsize (cw.extractLsb' 0 32)) ↔ cw &&& 0xFFFFFFFF00000000#64 = 0x5000000000000000#64) ∧
    (decode cw = .ok (.encode (cw.extractLsb' 32 21)) ↔ cw &&& 0xFFE00000FFFFFFFF#64 = 0x6000000000000000#64) ∧
    (decode cw = .ok .finish ↔ cw &&& 0xFFFFFFFFFFFFFFFF#64 = 0x7000000000000000#64) ∧
    (decode cw = .ok (.readReg (cw.extractLsb' 0 32)) ↔ cw &&& 0xFFFFFFFF00000000#64 = 0x8000000000000000#64) ∧
    (decode cw = .ok (.readAlpha (cw.extractLsb' 0 32)) ↔ cw &&& 0xFFFFFFFF00000000#64 = 0x9000000000000000#64) ∧
    (decode cw = .ok (.readNode (cw.extractLsb' 0 32)) ↔ cw &&& 0xFFFFFFFF00000000#64 = 0xA000000000000000#64) ∧
    (decode cw = .ok (.readCode (cw.extractLsb' 0 32) (cw.extractLsb' 32 21)) ↔
      cw &&& 0xFFE0000000000000#64 = 0xB000000000000000#64) ∧
    (0xC#4 ≤ cw.extractLsb' 60 4 → ∀ i, decode cw ≠ .ok i)

/-- R85, R86: a word with a reserved opcode, a nonzero RSV, or a nonzero field that its opcode does not use, and only
such a word, is rejected with ERR_ILLEGAL, whatever the phase, and has no other effect. -/
def Obligations.IllegalWordIsRejected : Prop :=
  ∀ (s : State) (cw : Word) (rest : List HostEvent), s.host = .command cw :: rest →
    let op := cw.extractLsb' 60 4
    let bad := 0xC#4 ≤ op ∨ cw.extractLsb' 53 7 ≠ 0#7 ∨
      (cw.extractLsb' 32 21 ≠ 0#21 ∧ op ∉ [0x2#4, 0x6#4, 0xB#4]) ∨
      (cw.extractLsb' 0 32 ≠ 0#32 ∧ op ∉ [0x2#4, 0x5#4, 0x8#4, 0x9#4, 0xA#4, 0xB#4])
    (bad → step s = .next { s with
      host := rest
      lastErr := .errIllegal
      responses := s.responses ++ [⟨{ s with lastErr := .errIllegal }.status, 0#64, 0#64⟩]
      pos := s.pos + 1 }) ∧
    (¬ bad → ∃ i, decode cw = .ok i)

/-! ### The step -/

/-- When the host's next event is a word that decodes to a command, the step is that command's `exec` with the event
taken, and nothing more (R62, R110). -/
def Obligations.StepRunsTheDecodedCommand : Prop :=
  ∀ (s : State) (cw : Word) (i : Instr) (rest : List HostEvent), s.host = .command cw :: rest → decode cw = .ok i →
    step s = exec i { s with host := rest }

/-- With no event from the host the block waits and keeps all state (R214, R220, R240).  That waiting is a step of its
own is the model's choice (log entry 5). -/
def Obligations.StepWaitsForTheHost : Prop :=
  ∀ s : State, s.host = [] → step s = .next s

/-- R63: every command, completed, rejected or fatal, gives exactly one response, with STATUS as it stands after it;
the data words are 0 unless it is a READ_* that completed.  The position advances by one (R39), and no parameter
changes. -/
def Obligations.EveryCommandGivesOneResponse : Prop :=
  ∀ (s t : State) (cw : Word) (rest : List HostEvent), s.host = .command cw :: rest → step s = .next t →
    t.host = rest ∧ t.params = s.params ∧ t.pos = s.pos + 1 ∧
    ∃ d0 d1, t.responses = s.responses ++ [⟨t.status, d0, d1⟩] ∧
      ((t.lastErr ≠ .errNone ∨ ∀ i, decode cw = .ok i → isRead i = false) → d0 = 0#64 ∧ d1 = 0#64)

/-- A command always answers, but for ENCODE and FINISH while the sink never acknowledges a write: then the block waits
with no response (R247).  That the wait is the named fault `sinkSilent` is the model's choice (log entry 3). -/
def Obligations.CommandsStopOnlyAtASilentSink : Prop :=
  ∀ (i : Instr) (s : State),
    (∃ t, exec i s = .next t) ∨
    (∃ t, exec i s = .fault (.sinkSilent t) ∧ t.ackScript.answer = none ∧ t.responses = s.responses ∧ t.pos = s.pos ∧
      (i = .finish ∨ ∃ sym, i = .encode sym))

/-- The three ends of a command, element by element: completion writes LAST_ERR <- 0 (R110), a reject writes LAST_ERR
and nothing else (R211), a fatal error writes PHASE, FAULT_CAUSE and LAST_ERR and nothing else (R212); each gives its
response and moves the position (R63, R39). -/
def Obligations.TheThreeEndsOfACommand : Prop :=
  ∀ (s : State) (d0 d1 : Word) (e : ErrCode),
    s.complete d0 d1 = { s with
      lastErr := .errNone
      responses := s.responses ++ [⟨{ s with lastErr := .errNone }.status, d0, d1⟩], pos := s.pos + 1 } ∧
    s.takeReject e = { s with
      lastErr := e
      responses := s.responses ++ [⟨{ s with lastErr := e }.status, 0#64, 0#64⟩], pos := s.pos + 1 } ∧
    s.takeFatal e = { s with
      phase := .fault, faultCause := e, lastErr := e
      responses := s.responses ++ [⟨{ s with phase := .fault, faultCause := e, lastErr := e }.status, 0#64, 0#64⟩]
      pos := s.pos + 1 }

/-! ### Status, phases, errors -/

/-- R22 with the codes of R21 and R210: the fields of STATUS. -/
def Obligations.StatusLayout : Prop :=
  ∀ s : State,
    (s.status.extractLsb' 0 3 = match s.phase with
      | .load => 0#3 | .built => 1#3 | .coded => 2#3 | .encoding => 3#3 | .done => 4#3 | .fault => 7#3) ∧
    (s.status.getLsbD 3 = s.treeValid) ∧ (s.status.getLsbD 4 = s.codesValid) ∧ (s.status.extractLsb' 5 3 = 0#3) ∧
    (let code : ErrCode → BitVec 4 := fun e => match e with
      | .errNone => 0#4 | .errIllegal => 1#4 | .errPhase => 2#4 | .errRange => 3#4 | .errBufsize => 4#4
      | .errFull => 5#4 | .errDup => 6#4 | .errEmpty => 7#4 | .errNocode => 8#4 | .errIo => 9#4 | .errInvariant => 10#4
     s.status.extractLsb' 8 4 = code s.lastErr ∧ s.status.extractLsb' 12 4 = code s.faultCause)

/-- R111: a command is rejected with ERR_PHASE, with no other effect, in every state its row of the table does not
admit, and never in one it admits. -/
def Obligations.PhaseTableIsEnforced : Prop :=
  ∀ (i : Instr) (s : State),
    let admitted : Prop := match i with
      | .nop => True
      | .clear => True
      | .loadSym _ _ => s.phase = .load
      | .build => s.phase = .load
      | .derive => s.phase = .built
      | .setBufsize _ => s.phase = .load ∨ s.phase = .built ∨ s.phase = .coded
      | .encode _ => s.phase = .coded ∨ s.phase = .encoding
      | .finish => s.phase = .coded ∨ s.phase = .encoding
      | .readReg _ => True
      | .readAlpha _ => True
      | .readNode _ => s.treeValid = true
      | .readCode _ _ => s.codesValid = true
    (¬ admitted → exec i s = .next { s with
      lastErr := .errPhase
      responses := s.responses ++ [⟨{ s with lastErr := .errPhase }.status, 0#64, 0#64⟩], pos := s.pos + 1 }) ∧
    (admitted → ∀ t, exec i s = .next t → t.lastErr ≠ .errPhase)

/-- R115: the phase moves only as the table says; every other command leaves it unchanged. -/
def Obligations.PhaseMovesOnlyByTheTable : Prop :=
  ∀ (i : Instr) (s t : State), Inv s → exec i s = .next t →
    t.phase = s.phase ∨
    (i = .clear ∧ t.phase = .load) ∨
    (i = .build ∧ s.phase = .load ∧ 1 ≤ s.n ∧ t.phase = .built) ∨
    (i = .build ∧ s.phase = .load ∧ s.n = 0 ∧ t.phase = .fault ∧ t.faultCause = .errEmpty) ∨
    (i = .derive ∧ s.phase = .built ∧ t.phase = .coded) ∨
    (∃ sym, i = .encode sym ∧ (s.phase = .coded ∨ s.phase = .encoding) ∧
      (((∃ e ∈ s.alpha, e.sym = sym) ∧ t.phase = .encoding ∧ (∀ w ∈ t.sink.drop s.sink.length, w.ack = some .ok)) ∨
       ((∀ e ∈ s.alpha, e.sym ≠ sym) ∧ t.phase = .fault ∧ t.faultCause = .errNocode) ∨
       (t.phase = .fault ∧ t.faultCause = .errIo ∧ ∃ w ∈ t.sink.drop s.sink.length, w.ack = some .fail))) ∨
    (i = .finish ∧ (s.phase = .coded ∨ s.phase = .encoding) ∧
      ((t.phase = .done ∧ (∀ w ∈ t.sink.drop s.sink.length, w.ack = some .ok)) ∨
       (t.phase = .fault ∧ t.faultCause = .errIo ∧ ∃ w ∈ t.sink.drop s.sink.length, w.ack = some .fail))) ∨
    ((i = .build ∧ s.phase = .load ∨ i = .derive ∧ s.phase = .built) ∧ t.phase = .fault ∧
      t.faultCause = .errInvariant)

/-- R211: a rejected command changes LAST_ERR and nothing else; its response carries no data. -/
def Obligations.RejectChangesOnlyLastErr : Prop :=
  ∀ (i : Instr) (s t : State), exec i s = .next t →
    t.lastErr ∈ [ErrCode.errIllegal, .errPhase, .errRange, .errBufsize, .errFull, .errDup] →
    t = { s with
      lastErr := t.lastErr
      responses := s.responses ++ [⟨{ s with lastErr := t.lastErr }.status, 0#64, 0#64⟩], pos := s.pos + 1 }

/-- R212: a fatal error sets PHASE = FAULT and FAULT_CAUSE = LAST_ERR = its code; what its command does not write keeps
its value, and so the alphabet, the flags, ROOT and BUF_SIZE do, and the tree and the code table unless the code is
ERR_INVARIANT (which R224 says is unreachable). -/
def Obligations.FatalErrorEntersFault : Prop :=
  ∀ (i : Instr) (s t : State), exec i s = .next t →
    t.lastErr ∈ [ErrCode.errEmpty, .errNocode, .errIo, .errInvariant] →
    t.phase = .fault ∧ t.faultCause = t.lastErr ∧
    t.alpha = s.alpha ∧ t.treeValid = s.treeValid ∧ t.codesValid = s.codesValid ∧ t.root = s.root ∧
    t.bufSize = s.bufSize ∧ t.params = s.params ∧ t.host = s.host ∧
    t.runStart = s.runStart ∧ t.runAnswered = s.runAnswered ∧
    (t.lastErr ≠ .errInvariant → t.node = s.node ∧ t.code = s.code) ∧
    (t.lastErr ≠ .errIo → t.acc = s.acc ∧ t.accN = s.accN ∧ t.obuf = s.obuf ∧ t.bitsIn = s.bitsIn ∧
      t.bytesOut = s.bytesOut ∧ t.writes = s.writes ∧ t.sink = s.sink ∧ t.ackScript = s.ackScript) ∧
    t.responses = s.responses ++ [⟨t.status, 0#64, 0#64⟩] ∧ t.pos = s.pos + 1

/-- R217, R212: in FAULT every command but CLEAR answers, changes nothing but LAST_ERR, issues no write, and raises no
fatal error; so FAULT_CAUSE keeps the one cause. -/
def Obligations.FaultIsLeftOnlyByClear : Prop :=
  ∀ (i : Instr) (s : State), s.phase = .fault → i ≠ .clear →
    ∃ t, exec i s = .next t ∧ OnlyLastErr s t ∧
      t.lastErr ∉ [ErrCode.errEmpty, .errNocode, .errIo, .errInvariant]

/-- R72: NOP and the READ_* commands change no state but LAST_ERR, and repeating one gives the same response. -/
def Obligations.ReadsHaveNoEffect : Prop :=
  ∀ (i : Instr) (s : State), isRead i = true ∨ i = .nop →
    ∃ t u, exec i s = .next t ∧ OnlyLastErr s t ∧ exec i t = .next u ∧
      u.responses.getLast? = t.responses.getLast?

/-- R25: a successful BUILD sets TREE_VALID, a successful DERIVE sets CODES_VALID, and only CLEAR sets either to 0. -/
def Obligations.OnlyClearResetsTheValidFlags : Prop :=
  ∀ (i : Instr) (s t : State), exec i s = .next t →
    (s.treeValid = true → t.treeValid = false → i = .clear) ∧
    (s.codesValid = true → t.codesValid = false → i = .clear) ∧
    (s.treeValid = false → (t.treeValid = true ↔ i = .build ∧ s.phase = .load ∧ t.lastErr = .errNone)) ∧
    (s.codesValid = false → (t.codesValid = true ↔ i = .derive ∧ s.phase = .built ∧ t.lastErr = .errNone))

/-- R41: once written, the tree and the code table are not changed but by CLEAR, and ALPHA is not from BUILD on. -/
def Obligations.TreeAndCodesAreImmutable : Prop :=
  ∀ (i : Instr) (s t : State), PhaseInv s → exec i s = .next t → i ≠ .clear →
    (s.treeValid = true → t.alpha = s.alpha ∧ t.node = s.node ∧ t.root = s.root) ∧
    (s.codesValid = true → t.code = s.code)

/-! ### Reset -/

/-- R42, R240: the state after reset, for any parameters.  (What the model adds beside R42's elements is nothing sent,
nothing answered and nothing written; the sink's answers at reset are the model's choice, log entry 3, and are not
stated.) -/
def Obligations.ResetState : Prop :=
  ∀ p : Params, let s := State.resetWith p
    s.phase = .load ∧ s.treeValid = false ∧ s.codesValid = false ∧ s.lastErr = .errNone ∧ s.faultCause = .errNone ∧
    s.n = 0 ∧ s.alpha = [] ∧ s.node = [] ∧ s.code = [] ∧ s.root = 0#16 ∧ s.bufSize = p.bufMax ∧ s.acc = 0#8 ∧
    s.accN = 0 ∧ s.obuf = [] ∧ s.bitsIn = 0#64 ∧ s.bytesOut = 0#64 ∧ s.writes = 0#64 ∧ s.status = 0x0000#16 ∧
    State.reset = State.resetWith { nMax := 256, bufMax := 4096#32 }

/-- R113, R242: CLEAR is legal in every phase, puts every element in its reset value (R42), issues no write, and answers
status 0x0000.  That it moves the position and keeps the logs is the model's inference from R39 (log entry 10);
`runStart` and `runAnswered`, where the new run's writes and responses begin, are the model's own elements (log entry
8). -/
def Obligations.ClearGivesTheResetState : Prop :=
  ∀ s : State, exec .clear s = .next { s with
    phase := .load, treeValid := false, codesValid := false, lastErr := .errNone, faultCause := .errNone
    alpha := [], node := [], root := 0#16, code := [], bufSize := s.params.bufMax, acc := 0#8, accN := 0, obuf := []
    bitsIn := 0#64, bytesOut := 0#64, writes := 0#64
    responses := s.responses ++ [⟨0x0000#16, 0#64, 0#64⟩], pos := s.pos + 1
    runStart := s.sink.length, runAnswered := s.responses.length }

/-- R240: the reset input between commands puts every element in its reset value, with no response; it does not move the
host's position (R39; log entry 10).  (`runStart` and `runAnswered` are the model's own
elements, log entry 8.) -/
def Obligations.ResetInputGivesTheResetState : Prop :=
  ∀ (s : State) (rest : List HostEvent), s.host = .reset :: rest → step s = .next { s with
    phase := .load, treeValid := false, codesValid := false, lastErr := .errNone, faultCause := .errNone
    alpha := [], node := [], root := 0#16, code := [], bufSize := s.params.bufMax, acc := 0#8, accN := 0, obuf := []
    bitsIn := 0#64, bytesOut := 0#64, writes := 0#64, host := rest
    runStart := s.sink.length, runAnswered := s.responses.length }

/-- R241: a reset while the command word `cw` runs abandons it with no response.  The state is that of reset, and the
writes that the command had issued stay issued: they are those of the run of `cw` against the answers drawn and a sink
that is silent after them, and, if that run then waits on a write and the draw says it was in flight, that write with no
answer.  So those answered have the answers drawn, in order, and at most one has none.  That the draw stands in the event
is the model's choice (log entry 9); `runStart` and `runAnswered` are the model's own elements (log entry 8). -/
def Obligations.ResetDuringKeepsTheIssuedWrites : Prop :=
  ∀ (s : State) (cw : Word) (acks : List Ack) (inFlight : Bool) (rest : List HostEvent),
    s.host = .resetDuring cw acks inFlight :: rest →
    let abandoned := runWord cw { s with host := rest, ackScript := { acks := acks, thereafter := .silent } }
    ∃ answered flying : List SinkWrite,
      step s = .next { s with
        phase := .load, treeValid := false, codesValid := false, lastErr := .errNone, faultCause := .errNone
        alpha := [], node := [], root := 0#16, code := [], bufSize := s.params.bufMax, acc := 0#8, accN := 0, obuf := []
        bitsIn := 0#64, bytesOut := 0#64, writes := 0#64, host := rest
        sink := s.sink ++ answered ++ flying, runStart := (s.sink ++ answered ++ flying).length
        runAnswered := s.responses.length } ∧
      ((∃ t, abandoned = .next t ∧ s.sink ++ answered = t.sink ∧ flying = []) ∨
       (∃ t, abandoned = .fault (.sinkSilent t) ∧ s.sink ++ answered = t.sink ∧ answered.length = acks.length ∧
        flying = if inFlight then [⟨t.obuf, none⟩] else [])) ∧
      answered.map SinkWrite.ack <+: acks.map some

/-! ### Control -/

/-- R112: NOP is legal in every phase and does nothing. -/
def Obligations.NopDoesNothing : Prop :=
  ∀ s : State, exec .nop s = .next (s.complete 0#64 0#64)

/-- R114 with R37's map: READ_REG returns the register, zero-extended, in d0, and ERR_RANGE from number 11 on. -/
def Obligations.ReadRegReturnsTheRegister : Prop :=
  ∀ (s : State) (reg : Val), exec (.readReg reg) s = .next (
    if reg = 0#32 then s.complete ({ s with lastErr := .errNone }.status.setWidth 64) 0#64
    else if reg = 1#32 then s.complete (s.bufSize.setWidth 64) 0#64
    else if reg = 2#32 then s.complete (BitVec.ofNat 64 s.alpha.length) 0#64
    else if reg = 3#32 then s.complete (s.root.setWidth 64) 0#64
    else if reg = 4#32 then s.complete (BitVec.ofNat 64 (256 * s.acc.toNat + s.accN.val)) 0#64
    else if reg = 5#32 then s.complete (BitVec.ofNat 64 s.obuf.length) 0#64
    else if reg = 6#32 then s.complete s.bitsIn 0#64
    else if reg = 7#32 then s.complete s.bytesOut 0#64
    else if reg = 8#32 then s.complete s.writes 0#64
    else if reg = 9#32 then s.complete (BitVec.ofNat 64 s.params.nMax) 0#64
    else if reg = 10#32 then s.complete (s.params.bufMax.setWidth 64) 0#64
    else s.takeReject .errRange)

/-! ### TreeBuilder -/

/-- R130: LOAD_SYM appends the entry; a full table is refused before a duplicate is. -/
def Obligations.LoadSymAppendsTheEntry : Prop :=
  ∀ (s : State) (sym : Sym) (freq : Freq), s.phase = .load →
    (s.n = s.params.nMax → exec (.loadSym sym freq) s = .next (s.takeReject .errFull)) ∧
    (s.n ≠ s.params.nMax → (∃ e ∈ s.alpha, e.sym = sym) →
      exec (.loadSym sym freq) s = .next (s.takeReject .errDup)) ∧
    (s.n ≠ s.params.nMax → (∀ e ∈ s.alpha, e.sym ≠ sym) →
      exec (.loadSym sym freq) s = .next ({ s with alpha := s.alpha ++ [AlphaEntry.mk sym freq] }.complete 0#64 0#64))

/-- R131: READ_ALPHA returns the frequency and the symbol of an entry below N, and ERR_RANGE at and above N. -/
def Obligations.ReadAlphaReturnsTheEntry : Prop :=
  ∀ (s : State) (k : Val),
    (∀ h : k.toNat < s.alpha.length, exec (.readAlpha k) s =
      .next (s.complete ((s.alpha[k.toNat]).freq.setWidth 64) ((s.alpha[k.toNat]).sym.setWidth 64))) ∧
    (s.alpha.length ≤ k.toNat → exec (.readAlpha k) s = .next (s.takeReject .errRange))

/-- R132: the order of the merge, constructor by constructor, as unsigned comparisons. -/
def Obligations.BeforeIsTheStatedOrder : Prop :=
  ∀ (f g : NodeFreq) (a b : Sym) (p q l r l' r' : NodeIdx),
    (before (.leaf f a) (.leaf g b) = true ↔
      f.toNat < g.toNat ∨ (f.toNat = g.toNat ∧ a.toNat < b.toNat)) ∧
    (before (.leaf f a) (.internal g q l r) = true ↔ f.toNat ≤ g.toNat) ∧
    (before (.internal f p l r) (.leaf g b) = true ↔ f.toNat < g.toNat) ∧
    (before (.internal f p l r) (.internal g q l' r') = true ↔
      f.toNat < g.toNat ∨ (f.toNat = g.toNat ∧ p.toNat < q.toNat))

/-- R133: on nodes with distinct symbols and distinct sequence ids, exactly one of two nodes sorts before the other, and
the order is transitive. -/
def Obligations.BeforeIsAStrictTotalOrder : Prop :=
  (∀ x y : Node,
    (match x, y with
      | .leaf _ a, .leaf _ b => a ≠ b
      | .internal _ p _ _, .internal _ q _ _ => p ≠ q
      | _, _ => True) →
    (before x y = true ∧ before y x = false) ∨ (before x y = false ∧ before y x = true)) ∧
  (∀ x y z : Node, before x y = true → before y z = true → before x z = true) ∧
  (∀ x : Node, before x x = false)

/-- R135, R223: BUILD of an empty alphabet is the fatal error ERR_EMPTY, and writes nothing else. -/
def Obligations.BuildOfNothingIsFatal : Prop :=
  ∀ s : State, s.phase = .load → s.n = 0 → exec .build s = .next (s.takeFatal .errEmpty)

/-- R134, R135: in LOAD with N >= 1, BUILD completes; NODE becomes a tree of ALPHA (R27, R28, R30), ROOT is 2N - 2,
TREE_VALID 1 and PHASE BUILT, and nothing else changes. -/
def Obligations.BuildMakesTheTree : Prop :=
  ∀ s : State, s.phase = .load → 1 ≤ s.n → s.n ≤ 32768 →
    ∃ nodes, TreeWf s.alpha nodes ∧ exec .build s = .next ({ s with
      node := nodes, root := BitVec.ofNat 16 (2 * s.n - 2), treeValid := true, phase := .built }.complete 0#64 0#64)

/-- R134: merge m makes node N + m from the two nodes that come first in the queue of its moment, the first extracted on
the left; the queue is the nodes made and not yet taken.  With distinct symbols the choice is strict (R133). -/
def Obligations.EachMergeTakesTheTwoFirst : Prop :=
  ∀ s t : State, s.phase = .load → 1 ≤ s.n → s.n ≤ 32768 → (s.alpha.map AlphaEntry.sym).Nodup →
    exec .build s = .next t →
    ∀ m, m + 1 < s.n → ∃ f l r, t.node[s.n + m]? = some (Node.internal f (BitVec.ofNat 16 m) l r) ∧
      f = freqAt t.node l.toNat + freqAt t.node r.toNat ∧
      InQueue t.node (s.n + m) l.toNat ∧ InQueue t.node (s.n + m) r.toNat ∧ l ≠ r ∧
      (∀ c, InQueue t.node (s.n + m) c → c ≠ l.toNat → beforeAt t.node l.toNat c = true) ∧
      (∀ c, InQueue t.node (s.n + m) c → c ≠ l.toNat → c ≠ r.toNat → beforeAt t.node r.toNat c = true)

/-- R137, R140: the root's frequency is the sum of all the frequencies loaded; no sum wraps. -/
def Obligations.RootHoldsTheTotal : Prop :=
  ∀ s t : State, s.phase = .load → 1 ≤ s.n → s.n ≤ 32768 → exec .build s = .next t →
    (freqAt t.node t.root.toNat).toNat = freqTotal s.alpha

/-- R138: permuting the loads permutes the leaf indices and relabels `left` and `right` to match; every internal node
keeps its index, frequency and sequence id. -/
def Obligations.LoadOrderDoesNotShapeTheTree : Prop :=
  ∀ (s t t' : State) (alpha' : List AlphaEntry), s.phase = .load → 1 ≤ s.n → s.n ≤ 32768 →
    (s.alpha.map AlphaEntry.sym).Nodup → s.alpha.Perm alpha' →
    exec .build s = .next t → exec .build { s with alpha := alpha' } = .next t' →
    ∃ σ : Nat → Nat,
      (∀ i e, s.alpha[i]? = some e → alpha'[σ i]? = some e) ∧ (∀ i, s.n ≤ i → σ i = i) ∧
      ∀ m f q l r, t.node[s.n + m]? = some (Node.internal f q l r) →
        t'.node[s.n + m]? = some (Node.internal f q (BitVec.ofNat 16 (σ l.toNat)) (BitVec.ofNat 16 (σ r.toNat)))

/-- R139: READ_NODE returns the frequency and the layout of a node, and ERR_RANGE from 2N - 1 on. -/
def Obligations.ReadNodeReturnsTheNode : Prop :=
  ∀ (s : State) (i : Val), s.treeValid = true →
    (∀ f sym, i.toNat < 2 * s.n - 1 → s.node[i.toNat]? = some (Node.leaf f sym) →
      exec (.readNode i) s = .next (s.complete (f.setWidth 64) (sym.setWidth 64))) ∧
    (∀ f q l r, i.toNat < 2 * s.n - 1 → s.node[i.toNat]? = some (Node.internal f q l r) →
      exec (.readNode i) s = .next (s.complete (f.setWidth 64)
        (BitVec.ofNat 64 (2 ^ 63 + 2 ^ 32 * q.toNat + 2 ^ 16 * l.toNat + r.toNat)))) ∧
    (2 * s.n - 1 ≤ i.toNat → exec (.readNode i) s = .next (s.takeReject .errRange))

/-! ### CodeTableGenerator -/

/-- R161: with one symbol DERIVE sets CODE[0] to the one-bit code 0. -/
def Obligations.DeriveOfOneSymbol : Prop :=
  ∀ s : State, s.phase = .built → s.n = 1 →
    exec .derive s = .next ({ s with code := [[false]], codesValid := true, phase := .coded }.complete 0#64 0#64)

/-- R160, R162: with two symbols or more, on a tree, DERIVE completes; each entry of CODE is the path from the root to
its leaf, 1 to N - 1 bits long; CODES_VALID is 1 and PHASE CODED, and nothing else changes. -/
def Obligations.DeriveGivesThePaths : Prop :=
  ∀ s : State, s.phase = .built → 2 ≤ s.n → TreeWf s.alpha s.node → s.root.toNat = 2 * s.n - 2 →
    ∃ table, exec .derive s =
        .next ({ s with code := table, codesValid := true, phase := .coded }.complete 0#64 0#64) ∧
      table.length = s.n ∧
      ∀ k, k < s.n → ∃ c, table[k]? = some c ∧ 1 ≤ c.length ∧ c.length ≤ s.n - 1 ∧
        follow s.node s.root.toNat c = some k

/-- R162 item 2, R32: after DERIVE no code begins another, and no two are equal. -/
def Obligations.CodesArePrefixFree : Prop :=
  ∀ s t : State, s.phase = .built → 2 ≤ s.n → TreeWf s.alpha s.node → s.root.toNat = 2 * s.n - 2 →
    exec .derive s = .next t → t.code.Pairwise fun c d => ¬ c <+: d ∧ ¬ d <+: c

/-- R162 item 3: after DERIVE the Kraft sum is exactly 1, said in units of 2^-N. -/
def Obligations.KraftSumIsOne : Prop :=
  ∀ s t : State, s.phase = .built → 2 ≤ s.n → TreeWf s.alpha s.node → s.root.toNat = 2 * s.n - 2 →
    exec .derive s = .next t → (t.code.map fun c => 2 ^ (s.n - c.length)).sum = 2 ^ s.n

/-- R164: READ_CODE returns word w of the code in d0, first bit most significant, 0 past its end, and the symbol and
the length in d1; ERR_RANGE for k >= N or w >= W_MAX = ceil(max(1, N_MAX - 1) / 64). -/
def Obligations.ReadCodeReturnsTheCode : Prop :=
  ∀ (s : State) (k : Val) (w : BitVec 21), s.codesValid = true →
    let wordsMax := (max 1 (s.params.nMax - 1) + 63) / 64
    (∀ e c, s.alpha[k.toNat]? = some e → s.code[k.toNat]? = some c → w.toNat < wordsMax →
      ∃ d0 : Word, (∀ j, j < 64 → d0.getLsbD (63 - j) = c.getD (64 * w.toNat + j) false) ∧
        exec (.readCode k w) s =
          .next (s.complete d0 (BitVec.ofNat 64 (2 ^ 32 * e.sym.toNat + c.length % 2 ^ 16)))) ∧
    (s.n ≤ k.toNat ∨ wordsMax ≤ w.toNat → exec (.readCode k w) s = .next (s.takeReject .errRange))

/-! ### BitPacker -/

/-- R180: SET_BUFSIZE sets BUF_SIZE to a size from 1 to BUF_MAX, and refuses every other with ERR_BUFSIZE. -/
def Obligations.SetBufsizeSetsTheSize : Prop :=
  ∀ (s : State) (size : Val), s.phase = .load ∨ s.phase = .built ∨ s.phase = .coded →
    (1 ≤ size.toNat ∧ size.toNat ≤ s.params.bufMax.toNat →
      exec (.setBufsize size) s = .next ({ s with bufSize := size }.complete 0#64 0#64)) ∧
    (size.toNat = 0 ∨ s.params.bufMax.toNat < size.toNat →
      exec (.setBufsize size) s = .next (s.takeReject .errBufsize))

/-- R182: what AppendBit does to ACC, ACC_N, BITS_IN and OBUF, and when it flushes. -/
def Obligations.AppendBitIsTheStatedPacking : Prop :=
  ∀ (s : State) (b : Bool),
    (s.accN.val < 7 → ∃ n : Fin 8, n.val = s.accN.val + 1 ∧
      appendBit s b = .ok { s with
        acc := BitVec.ofNat 8 (2 * s.acc.toNat + b.toNat), accN := n, bitsIn := s.bitsIn + 1#64 }) ∧
    (s.accN.val = 7 →
      let t := { s with
        acc := 0#8, accN := 0, bitsIn := s.bitsIn + 1#64
        obuf := s.obuf ++ [BitVec.ofNat 8 (2 * s.acc.toNat + b.toNat)] }
      appendBit s b = if t.obuf.length = s.bufSize.toNat then flushBuf t else .ok t)

/-- R183: FlushBuf is one write of the whole buffer; OK counts it and empties the buffer, FAIL leaves buffer and
counters, and without an answer the block waits (R247). -/
def Obligations.FlushBufWritesTheBuffer : Prop :=
  ∀ (s : State) (rest : AckScript),
    (s.ackScript.answer = some (.ok, rest) → flushBuf s = .ok { s with
      ackScript := rest, sink := s.sink ++ [⟨s.obuf, some .ok⟩]
      bytesOut := s.bytesOut + BitVec.ofNat 64 s.obuf.length, writes := s.writes + 1#64, obuf := [] }) ∧
    (s.ackScript.answer = some (.fail, rest) → flushBuf s = .ioFail { s with
      ackScript := rest, sink := s.sink ++ [⟨s.obuf, some .fail⟩] }) ∧
    (s.ackScript.answer = none → flushBuf s = .hang s)

/-- R181: ENCODE of a loaded symbol, with every write acknowledged OK, completes: the bitstream gets the symbol's code,
BITS_IN its length, BYTES_OUT and WRITES count the writes, PHASE is ENCODING, and nothing else changes. -/
def Obligations.EncodeAppendsTheCode : Prop :=
  ∀ (s : State) (k : Nat) (e : AlphaEntry) (c : Code), s.phase = .coded ∨ s.phase = .encoding →
    (s.alpha.map AlphaEntry.sym).Nodup → s.alpha[k]? = some e → s.code[k]? = some c →
    s.ackScript.allOk = true → s.runStart ≤ s.sink.length →
    ∃ t new, exec (.encode e.sym) s = .next t ∧
      t.phase = .encoding ∧ t.lastErr = .errNone ∧ t.stream = s.stream ++ c ∧
      t.bitsIn = s.bitsIn + BitVec.ofNat 64 c.length ∧
      t.sink = s.sink ++ new ∧ (∀ w ∈ new, w.ack = some .ok) ∧
      t.bytesOut = s.bytesOut + BitVec.ofNat 64 (okBytes new).length ∧ t.writes = s.writes + BitVec.ofNat 64 new.length ∧
      t = { s with
        phase := t.phase, lastErr := t.lastErr, acc := t.acc, accN := t.accN, obuf := t.obuf, bitsIn := t.bitsIn
        bytesOut := t.bytesOut, writes := t.writes, ackScript := t.ackScript, sink := t.sink
        responses := s.responses ++ [⟨t.status, 0#64, 0#64⟩], pos := s.pos + 1 }

/-- R189, R221: ENCODE of a symbol that is not loaded is the fatal error ERR_NOCODE; no bit is appended and the packer
state is unchanged. -/
def Obligations.EncodeOfAnUnloadedSymbolIsFatal : Prop :=
  ∀ (s : State) (sym : Sym), s.phase = .coded ∨ s.phase = .encoding → (∀ e ∈ s.alpha, e.sym ≠ sym) →
    exec (.encode sym) s = .next (s.takeFatal .errNocode)

/-- R215: when ENCODE ends in ERR_IO, every bit up to the one that filled the buffer has been appended and counted and
no later one, OBUF holds the BUF_SIZE bytes of the failed write, ACC = ACC_N = 0, and the counters do not count it. -/
def Obligations.EncodeStopsAtTheFailedWrite : Prop :=
  ∀ (s t : State) (k : Nat) (e : AlphaEntry) (c : Code), s.phase = .coded ∨ s.phase = .encoding →
    (s.alpha.map AlphaEntry.sym).Nodup → s.alpha[k]? = some e → s.code[k]? = some c →
    s.runStart ≤ s.sink.length → s.obuf.length < s.bufSize.toNat →
    exec (.encode e.sym) s = .next t → t.lastErr = .errIo →
    t.phase = .fault ∧ t.faultCause = .errIo ∧ t.acc = 0#8 ∧ t.accN = 0 ∧ t.obuf.length = t.bufSize.toNat ∧
    (∃ j, 1 ≤ j ∧ j ≤ c.length ∧ t.stream = s.stream ++ c.take j ∧ t.bitsIn = s.bitsIn + BitVec.ofNat 64 j) ∧
    ∃ new, t.sink = s.sink ++ new ++ [⟨t.obuf, some .fail⟩] ∧ (∀ w ∈ new, w.ack = some .ok) ∧
      t.bytesOut = s.bytesOut + BitVec.ofNat 64 (okBytes new).length ∧
      t.writes = s.writes + BitVec.ofNat 64 new.length

/-- R181, R183: when the code fills the buffer and the sink answers that write FAIL, ENCODE ends in ERR_IO. -/
def Obligations.EncodeFaultsWhenTheWriteFails : Prop :=
  ∀ (s : State) (rest : AckScript) (k : Nat) (e : AlphaEntry) (c : Code), s.phase = .coded ∨ s.phase = .encoding →
    (s.alpha.map AlphaEntry.sym).Nodup → s.alpha[k]? = some e → s.code[k]? = some c →
    s.obuf.length + 1 = s.bufSize.toNat → 8 ≤ s.accN.val + c.length → s.ackScript.answer = some (.fail, rest) →
    ∃ t, exec (.encode e.sym) s = .next t ∧ t.phase = .fault ∧ t.faultCause = .errIo ∧ t.lastErr = .errIo ∧
      t.bitsIn = s.bitsIn + BitVec.ofNat 64 (8 - s.accN.val) ∧ t.bytesOut = s.bytesOut ∧ t.writes = s.writes ∧
      t.sink = s.sink ++ [⟨t.obuf, some .fail⟩]

/-- R184: FINISH pads a partial byte with zero bits and writes what remains, if anything does, in one write; with the
answer OK (or nothing to write) it completes and PHASE is DONE.  With no answer the block waits for ever (R247), which the
model says by the named fault `sinkSilent` (its choice, log entry 3). -/
def Obligations.FinishWritesWhatRemains : Prop :=
  ∀ (s : State), s.phase = .coded ∨ s.phase = .encoding →
    let last := if s.accN.val = 0 then s.obuf
      else s.obuf ++ [BitVec.ofNat 8 (2 ^ (8 - s.accN.val) * s.acc.toNat)]
    (last = [] → exec .finish s = .next ({ s with phase := .done }.complete 0#64 0#64)) ∧
    (∀ rest, last ≠ [] → s.ackScript.answer = some (.ok, rest) → exec .finish s = .next ({ s with
      phase := .done, acc := if s.accN.val = 0 then s.acc else 0#8, accN := 0, obuf := []
      bytesOut := s.bytesOut + BitVec.ofNat 64 last.length, writes := s.writes + 1#64
      ackScript := rest, sink := s.sink ++ [SinkWrite.mk last (some .ok)] }.complete 0#64 0#64)) ∧
    (∀ rest, last ≠ [] → s.ackScript.answer = some (.fail, rest) → exec .finish s = .next ({ s with
      acc := if s.accN.val = 0 then s.acc else 0#8, accN := 0, obuf := last
      ackScript := rest, sink := s.sink ++ [SinkWrite.mk last (some .fail)] }.takeFatal .errIo)) ∧
    (last ≠ [] → s.ackScript.answer = none → ∃ t, exec .finish s = .fault (.sinkSilent t))

/-- R186: when FINISH ends in DONE, the output file is the bitstream, then zero bits up to a whole number of bytes. -/
def Obligations.FinishOutputIsThePaddedStream : Prop :=
  ∀ s t : State, s.phase = .coded ∨ s.phase = .encoding → s.runStart ≤ s.sink.length →
    exec .finish s = .next t → t.phase = .done →
    ∃ pad, pad < 8 ∧ bytesBits t.output = s.stream ++ List.replicate pad false ∧
      t.output.length = (s.stream.length + 7) / 8

/-- R188, R65, R74: after every step (a command, a reset, a reset during a command, a wait) the current run has succeeded
exactly when PHASE is DONE, and failed exactly when it is FAULT.  When it has succeeded the sink holds the output file of
the run and nothing else, and that file is all of the bitstream; when it has neither succeeded nor failed, at most
BUF_SIZE - 1 bytes and 7 bits of the bitstream are not written.  (`SinkMayHold` is how the model says R65's "any byte
sequence", and `runSucceeded` reads the responses since the last reset or CLEAR: log entry 8.) -/
def Obligations.SuccessMeansTheSinkHoldsTheOutput : Prop :=
  ∀ s t : State, Inv s → step s = .next t →
    (t.runSucceeded = true ↔ t.phase = .done) ∧ (t.runFailed = true ↔ t.phase = .fault) ∧
    (t.runSucceeded = true → t.stream = bytesBits t.output ∧
      ∀ contents, SinkMayHold t.runWrites contents → contents = t.output) ∧
    (t.runSucceeded = false → t.runFailed = false →
      ∃ unwritten, t.stream = bytesBits t.output ++ unwritten ∧ unwritten.length ≤ 8 * (t.bufSize.toNat - 1) + 7)

/-- R183, R190: every write that ENCODE issues has exactly BUF_SIZE bytes; FINISH issues at most one write, of 1 to
BUF_SIZE bytes. -/
def Obligations.WritesAreWholeBuffers : Prop :=
  ∀ (s t : State), s.obuf.length < s.bufSize.toNat → (s.phase = .coded ∨ s.phase = .encoding) →
    (∀ sym, exec (.encode sym) s = .next t →
      ∃ new, t.sink = s.sink ++ new ∧ ∀ w ∈ new, w.bytes.length = s.bufSize.toNat) ∧
    (exec .finish s = .next t →
      ∃ new, t.sink = s.sink ++ new ∧ new.length ≤ 1 ∧
        ∀ w ∈ new, 1 ≤ w.bytes.length ∧ w.bytes.length ≤ s.bufSize.toNat)

/-- R76, R186: for every sequence of loaded symbols and every acknowledgement OK, ENCODE of each and FINISH complete for
every BUF_SIZE; the output is the codes in order, padded with zero bits to whole bytes, and does not depend on
BUF_SIZE. -/
def Obligations.BufferSizeDoesNotChangeTheOutput : Prop :=
  ∀ (s : State) (text : List Sym) (b1 b2 : BitVec 32), Inv s → s.phase = .coded → s.ackScript.allOk = true →
    1#32 ≤ b1 → b1 ≤ s.params.bufMax → 1#32 ≤ b2 → b2 ≤ s.params.bufMax →
    (∀ sym ∈ text, ∃ e ∈ s.alpha, e.sym = sym) →
    ∃ t1 t2 pad, runCommands (text.map .encode ++ [.finish]) { s with bufSize := b1 } = .next t1 ∧
      runCommands (text.map .encode ++ [.finish]) { s with bufSize := b2 } = .next t2 ∧
      t1.phase = .done ∧ t2.phase = .done ∧ t1.output = t2.output ∧ pad < 8 ∧
      bytesBits t1.output = (text.flatMap fun sym => (codeOf s sym).getD []) ++ List.replicate pad false

/-- R190: in such a run the lengths of the writes are those of the output cut into chunks of BUF_SIZE, with a short last
chunk if there is a remainder. -/
def Obligations.WriteLengthsAreTheChunks : Prop :=
  ∀ (s : State) (text : List Sym), Inv s → s.phase = .coded → s.ackScript.allOk = true →
    (∀ sym ∈ text, ∃ e ∈ s.alpha, e.sym = sym) →
    ∃ t, runCommands (text.map .encode ++ [.finish]) s = .next t ∧ t.phase = .done ∧
      (let total := ((text.flatMap fun sym => (codeOf s sym).getD []).length + 7) / 8
       t.output.length = total ∧
       t.runWrites.map (fun w => w.bytes.length) =
        List.replicate (total / s.bufSize.toNat) s.bufSize.toNat ++
          (if total % s.bufSize.toNat = 0 then [] else [total % s.bufSize.toNat]))

/-! ### Invariants -/

/-- The invariants of R43 hold at reset, for all parameters in R5's ranges. -/
def Obligations.InvariantHoldsAtReset : Prop :=
  ∀ p : Params, p.wf = true → Inv (State.resetWith p)

/-- The invariants of R43 (with R27 to R36 and the counters of R36) are kept by every step, whatever the host does and
the sink answers.  What `Inv` says beyond R43, so that it is inductive, is the model's inference (log entry 12). -/
def Obligations.EveryStepKeepsTheInvariant : Prop :=
  ∀ s t : State, Inv s → step s = .next t → Inv t

/-- R136, R163, R224: no command raises ERR_INVARIANT in a state that meets the invariants of R43. -/
def Obligations.StructuralChecksNeverFire : Prop :=
  ∀ (i : Instr) (s t : State), Inv s → exec i s = .next t → t.lastErr ≠ .errInvariant ∧ t.faultCause ≠ .errInvariant
end

