-- ==== Sys2Proof/Laws/State.lean ====
section
/-! SUPPORT. One lemma for each field under each shared update of the state (`respond`, `complete`, `takeReject`,
`takeFatal`, `clearBlock`), so that no later proof unfolds one, and the same for STATUS. -/

namespace Sys2Proof.Machine

variable (s : State) (d0 d1 : Word) (e : ErrCode)

/-! ### `respond` -/

@[simp] theorem State.respond_phase : (s.respond d0 d1).phase = s.phase := rfl
@[simp] theorem State.respond_treeValid : (s.respond d0 d1).treeValid = s.treeValid := rfl
@[simp] theorem State.respond_codesValid : (s.respond d0 d1).codesValid = s.codesValid := rfl
@[simp] theorem State.respond_lastErr : (s.respond d0 d1).lastErr = s.lastErr := rfl
@[simp] theorem State.respond_faultCause : (s.respond d0 d1).faultCause = s.faultCause := rfl
@[simp] theorem State.respond_alpha : (s.respond d0 d1).alpha = s.alpha := rfl
@[simp] theorem State.respond_node : (s.respond d0 d1).node = s.node := rfl
@[simp] theorem State.respond_root : (s.respond d0 d1).root = s.root := rfl
@[simp] theorem State.respond_code : (s.respond d0 d1).code = s.code := rfl
@[simp] theorem State.respond_bufSize : (s.respond d0 d1).bufSize = s.bufSize := rfl
@[simp] theorem State.respond_acc : (s.respond d0 d1).acc = s.acc := rfl
@[simp] theorem State.respond_accN : (s.respond d0 d1).accN = s.accN := rfl
@[simp] theorem State.respond_obuf : (s.respond d0 d1).obuf = s.obuf := rfl
@[simp] theorem State.respond_bitsIn : (s.respond d0 d1).bitsIn = s.bitsIn := rfl
@[simp] theorem State.respond_bytesOut : (s.respond d0 d1).bytesOut = s.bytesOut := rfl
@[simp] theorem State.respond_writes : (s.respond d0 d1).writes = s.writes := rfl
@[simp] theorem State.respond_params : (s.respond d0 d1).params = s.params := rfl
@[simp] theorem State.respond_host : (s.respond d0 d1).host = s.host := rfl
@[simp] theorem State.respond_ackScript : (s.respond d0 d1).ackScript = s.ackScript := rfl
@[simp] theorem State.respond_pos : (s.respond d0 d1).pos = s.pos + 1 := rfl
@[simp] theorem State.respond_responses : (s.respond d0 d1).responses = s.responses ++ [⟨s.status, d0, d1⟩] := rfl
@[simp] theorem State.respond_sink : (s.respond d0 d1).sink = s.sink := rfl
@[simp] theorem State.respond_runStart : (s.respond d0 d1).runStart = s.runStart := rfl
@[simp] theorem State.respond_runAnswered : (s.respond d0 d1).runAnswered = s.runAnswered := rfl

/-! ### `complete` -/

@[simp] theorem State.complete_phase : (s.complete d0 d1).phase = s.phase := rfl
@[simp] theorem State.complete_treeValid : (s.complete d0 d1).treeValid = s.treeValid := rfl
@[simp] theorem State.complete_codesValid : (s.complete d0 d1).codesValid = s.codesValid := rfl
@[simp] theorem State.complete_lastErr : (s.complete d0 d1).lastErr = .errNone := rfl
@[simp] theorem State.complete_faultCause : (s.complete d0 d1).faultCause = s.faultCause := rfl
@[simp] theorem State.complete_alpha : (s.complete d0 d1).alpha = s.alpha := rfl
@[simp] theorem State.complete_node : (s.complete d0 d1).node = s.node := rfl
@[simp] theorem State.complete_root : (s.complete d0 d1).root = s.root := rfl
@[simp] theorem State.complete_code : (s.complete d0 d1).code = s.code := rfl
@[simp] theorem State.complete_bufSize : (s.complete d0 d1).bufSize = s.bufSize := rfl
@[simp] theorem State.complete_acc : (s.complete d0 d1).acc = s.acc := rfl
@[simp] theorem State.complete_accN : (s.complete d0 d1).accN = s.accN := rfl
@[simp] theorem State.complete_obuf : (s.complete d0 d1).obuf = s.obuf := rfl
@[simp] theorem State.complete_bitsIn : (s.complete d0 d1).bitsIn = s.bitsIn := rfl
@[simp] theorem State.complete_bytesOut : (s.complete d0 d1).bytesOut = s.bytesOut := rfl
@[simp] theorem State.complete_writes : (s.complete d0 d1).writes = s.writes := rfl
@[simp] theorem State.complete_params : (s.complete d0 d1).params = s.params := rfl
@[simp] theorem State.complete_host : (s.complete d0 d1).host = s.host := rfl
@[simp] theorem State.complete_ackScript : (s.complete d0 d1).ackScript = s.ackScript := rfl
@[simp] theorem State.complete_pos : (s.complete d0 d1).pos = s.pos + 1 := rfl
theorem State.complete_responses : (s.complete d0 d1).responses = s.responses ++ [⟨(s.complete d0 d1).status, d0, d1⟩] := rfl
@[simp] theorem State.complete_sink : (s.complete d0 d1).sink = s.sink := rfl
@[simp] theorem State.complete_runStart : (s.complete d0 d1).runStart = s.runStart := rfl
@[simp] theorem State.complete_runAnswered : (s.complete d0 d1).runAnswered = s.runAnswered := rfl

/-! ### `takeReject` -/

@[simp] theorem State.takeReject_phase : (s.takeReject e).phase = s.phase := rfl
@[simp] theorem State.takeReject_treeValid : (s.takeReject e).treeValid = s.treeValid := rfl
@[simp] theorem State.takeReject_codesValid : (s.takeReject e).codesValid = s.codesValid := rfl
@[simp] theorem State.takeReject_lastErr : (s.takeReject e).lastErr = e := rfl
@[simp] theorem State.takeReject_faultCause : (s.takeReject e).faultCause = s.faultCause := rfl
@[simp] theorem State.takeReject_alpha : (s.takeReject e).alpha = s.alpha := rfl
@[simp] theorem State.takeReject_node : (s.takeReject e).node = s.node := rfl
@[simp] theorem State.takeReject_root : (s.takeReject e).root = s.root := rfl
@[simp] theorem State.takeReject_code : (s.takeReject e).code = s.code := rfl
@[simp] theorem State.takeReject_bufSize : (s.takeReject e).bufSize = s.bufSize := rfl
@[simp] theorem State.takeReject_acc : (s.takeReject e).acc = s.acc := rfl
@[simp] theorem State.takeReject_accN : (s.takeReject e).accN = s.accN := rfl
@[simp] theorem State.takeReject_obuf : (s.takeReject e).obuf = s.obuf := rfl
@[simp] theorem State.takeReject_bitsIn : (s.takeReject e).bitsIn = s.bitsIn := rfl
@[simp] theorem State.takeReject_bytesOut : (s.takeReject e).bytesOut = s.bytesOut := rfl
@[simp] theorem State.takeReject_writes : (s.takeReject e).writes = s.writes := rfl
@[simp] theorem State.takeReject_params : (s.takeReject e).params = s.params := rfl
@[simp] theorem State.takeReject_host : (s.takeReject e).host = s.host := rfl
@[simp] theorem State.takeReject_ackScript : (s.takeReject e).ackScript = s.ackScript := rfl
@[simp] theorem State.takeReject_pos : (s.takeReject e).pos = s.pos + 1 := rfl
theorem State.takeReject_responses : (s.takeReject e).responses = s.responses ++ [⟨(s.takeReject e).status, 0#64, 0#64⟩] := rfl
@[simp] theorem State.takeReject_sink : (s.takeReject e).sink = s.sink := rfl
@[simp] theorem State.takeReject_runStart : (s.takeReject e).runStart = s.runStart := rfl
@[simp] theorem State.takeReject_runAnswered : (s.takeReject e).runAnswered = s.runAnswered := rfl

/-! ### `takeFatal` -/

@[simp] theorem State.takeFatal_phase : (s.takeFatal e).phase = .fault := rfl
@[simp] theorem State.takeFatal_treeValid : (s.takeFatal e).treeValid = s.treeValid := rfl
@[simp] theorem State.takeFatal_codesValid : (s.takeFatal e).codesValid = s.codesValid := rfl
@[simp] theorem State.takeFatal_lastErr : (s.takeFatal e).lastErr = e := rfl
@[simp] theorem State.takeFatal_faultCause : (s.takeFatal e).faultCause = e := rfl
@[simp] theorem State.takeFatal_alpha : (s.takeFatal e).alpha = s.alpha := rfl
@[simp] theorem State.takeFatal_node : (s.takeFatal e).node = s.node := rfl
@[simp] theorem State.takeFatal_root : (s.takeFatal e).root = s.root := rfl
@[simp] theorem State.takeFatal_code : (s.takeFatal e).code = s.code := rfl
@[simp] theorem State.takeFatal_bufSize : (s.takeFatal e).bufSize = s.bufSize := rfl
@[simp] theorem State.takeFatal_acc : (s.takeFatal e).acc = s.acc := rfl
@[simp] theorem State.takeFatal_accN : (s.takeFatal e).accN = s.accN := rfl
@[simp] theorem State.takeFatal_obuf : (s.takeFatal e).obuf = s.obuf := rfl
@[simp] theorem State.takeFatal_bitsIn : (s.takeFatal e).bitsIn = s.bitsIn := rfl
@[simp] theorem State.takeFatal_bytesOut : (s.takeFatal e).bytesOut = s.bytesOut := rfl
@[simp] theorem State.takeFatal_writes : (s.takeFatal e).writes = s.writes := rfl
@[simp] theorem State.takeFatal_params : (s.takeFatal e).params = s.params := rfl
@[simp] theorem State.takeFatal_host : (s.takeFatal e).host = s.host := rfl
@[simp] theorem State.takeFatal_ackScript : (s.takeFatal e).ackScript = s.ackScript := rfl
@[simp] theorem State.takeFatal_pos : (s.takeFatal e).pos = s.pos + 1 := rfl
theorem State.takeFatal_responses : (s.takeFatal e).responses = s.responses ++ [⟨(s.takeFatal e).status, 0#64, 0#64⟩] := rfl
@[simp] theorem State.takeFatal_sink : (s.takeFatal e).sink = s.sink := rfl
@[simp] theorem State.takeFatal_runStart : (s.takeFatal e).runStart = s.runStart := rfl
@[simp] theorem State.takeFatal_runAnswered : (s.takeFatal e).runAnswered = s.runAnswered := rfl

/-! ### `clearBlock` -/

@[simp] theorem State.clearBlock_phase : (s.clearBlock).phase = .load := rfl
@[simp] theorem State.clearBlock_treeValid : (s.clearBlock).treeValid = false := rfl
@[simp] theorem State.clearBlock_codesValid : (s.clearBlock).codesValid = false := rfl
@[simp] theorem State.clearBlock_lastErr : (s.clearBlock).lastErr = .errNone := rfl
@[simp] theorem State.clearBlock_faultCause : (s.clearBlock).faultCause = .errNone := rfl
@[simp] theorem State.clearBlock_alpha : (s.clearBlock).alpha = [] := rfl
@[simp] theorem State.clearBlock_node : (s.clearBlock).node = [] := rfl
@[simp] theorem State.clearBlock_root : (s.clearBlock).root = 0#16 := rfl
@[simp] theorem State.clearBlock_code : (s.clearBlock).code = [] := rfl
@[simp] theorem State.clearBlock_bufSize : (s.clearBlock).bufSize = s.params.bufMax := rfl
@[simp] theorem State.clearBlock_acc : (s.clearBlock).acc = 0#8 := rfl
@[simp] theorem State.clearBlock_accN : (s.clearBlock).accN = 0 := rfl
@[simp] theorem State.clearBlock_obuf : (s.clearBlock).obuf = [] := rfl
@[simp] theorem State.clearBlock_bitsIn : (s.clearBlock).bitsIn = 0#64 := rfl
@[simp] theorem State.clearBlock_bytesOut : (s.clearBlock).bytesOut = 0#64 := rfl
@[simp] theorem State.clearBlock_writes : (s.clearBlock).writes = 0#64 := rfl
@[simp] theorem State.clearBlock_params : (s.clearBlock).params = s.params := rfl
@[simp] theorem State.clearBlock_host : (s.clearBlock).host = s.host := rfl
@[simp] theorem State.clearBlock_ackScript : (s.clearBlock).ackScript = s.ackScript := rfl
@[simp] theorem State.clearBlock_pos : (s.clearBlock).pos = s.pos := rfl
theorem State.clearBlock_responses : (s.clearBlock).responses = s.responses := rfl
@[simp] theorem State.clearBlock_sink : (s.clearBlock).sink = s.sink := rfl
@[simp] theorem State.clearBlock_runStart : (s.clearBlock).runStart = s.sink.length := rfl
@[simp] theorem State.clearBlock_runAnswered : (s.clearBlock).runAnswered = s.responses.length := rfl

/-! ### STATUS -/

@[simp] theorem State.respond_status : (s.respond d0 d1).status = s.status := rfl
@[simp] theorem State.clearBlock_status : s.clearBlock.status = 0#16 := by
  simp [State.status, Phase.code, ErrCode.code]

end Sys2Proof.Machine
end

