-- ==== Sys2Proof/Laws/Tree.lean ====
section
/-! SUPPORT. What the merge of BUILD does (41_tree_builder.md R132 to R140): the order, the extraction of the least node,
and one invariant of the merge loop, from which the tree's shape, the choice at each merge and the frequencies
follow. -/

namespace Sys2Proof.Machine

/-! ### The order -/

theorem before_irrefl (x : Node) : before x x = false := by
  cases x <;> simp [before, Node.freq]

theorem before_trans {x y z : Node} (h : before x y = true) (g : before y z = true) : before x z = true := by
  cases x <;> cases y <;> cases z <;> simp only [before, Node.freq, Bool.or_eq_true, Bool.and_eq_true, decide_eq_true_eq,
    beq_iff_eq, BitVec.lt_def, ← BitVec.toNat_inj, Bool.false_eq_true, and_false, or_false, and_true] at * <;> omega

/-- Two nodes of one kind with different symbols or sequence ids, or nodes of two kinds, are ordered one way (R133). -/
theorem before_total {x y : Node}
    (h : match x, y with
      | .leaf _ a, .leaf _ b => a ≠ b
      | .internal _ a _ _, .internal _ b _ _ => a ≠ b
      | _, _ => True) : before x y = true ∨ before y x = true := by
  cases x <;> cases y <;> simp only [before, Node.freq, Bool.or_eq_true, Bool.and_eq_true, decide_eq_true_eq,
    beq_iff_eq, BitVec.lt_def, ← BitVec.toNat_inj, ne_eq, Bool.false_eq_true, and_false, or_false, and_true] at * <;>
    omega

theorem beforeAt_trans {nodes : List Node} {i j k : Nat} (h : beforeAt nodes i j = true)
    (g : beforeAt nodes j k = true) : beforeAt nodes i k = true := by
  unfold beforeAt at *
  split at h <;> simp_all
  split at g <;> simp_all
  exact before_trans h g

/-! ### The least index -/

/-- `minIndex` finds an index of the queue that no other sorts before. -/
theorem minIndex_spec (nodes : List Node) (i : Nat) (q : List Nat) :
    ∃ a, minIndex nodes (i :: q) = some a ∧ a ∈ i :: q ∧ ∀ c ∈ i :: q, beforeAt nodes c a = false := by
  have irr : ∀ c, beforeAt nodes c c = false := by
    intro c; unfold beforeAt; split <;> simp_all [before_irrefl]
  suffices ∀ (q seen : List Nat) (m : Nat), m ∈ seen → (∀ c ∈ seen, beforeAt nodes c m = false) →
      let a := q.foldl (fun m j => if beforeAt nodes j m then j else m) m
      a ∈ seen ++ q ∧ ∀ c ∈ seen ++ q, beforeAt nodes c a = false by
    exact ⟨_, rfl, this q [i] i (by simp) (by simpa using irr i)⟩
  intro q
  induction q with
  | nil => intro seen m hm h; simpa using ⟨hm, h⟩
  | cons j q ih =>
    intro seen m hm h
    by_cases hj : beforeAt nodes j m = true
    · have := ih (seen ++ [j]) j (by simp) (by
        intro c hc
        rcases List.mem_append.1 hc with hc | hc
        · by_contra hb
          have := beforeAt_trans (by simpa using hb) hj
          rw [h c hc] at this; cases this
        · rw [List.mem_singleton.1 hc]; exact irr j)
      simpa [hj, List.append_assoc] using this
    · have := ih (seen ++ [j]) m (by simp [hm]) (by
        intro c hc
        rcases List.mem_append.1 hc with hc | hc
        · exact h c hc
        · rw [List.mem_singleton.1 hc]; simpa using hj)
      simpa [hj, List.append_assoc] using this

/-- `extractMin` takes a Before-minimal index out of a queue that is not empty. -/
theorem extractMin_spec (nodes : List Node) {q : List Nat} (hq : q ≠ []) :
    ∃ a, extractMin nodes q = some (a, q.erase a) ∧ a ∈ q ∧ ∀ c ∈ q, beforeAt nodes c a = false := by
  obtain ⟨i, q, rfl⟩ := List.exists_cons_of_ne_nil hq
  obtain ⟨a, h, hm, hb⟩ := minIndex_spec nodes i q
  exact ⟨a, by simp [extractMin, h], hm, hb⟩

/-! ### The merge loop -/

@[simp] theorem childList_append (xs ys : List Node) : childList (xs ++ ys) = childList xs ++ childList ys := by
  simp [childList]

@[simp] theorem childList_leaves (alpha : List AlphaEntry) : childList (leaves alpha) = [] := by
  simp [childList, leaves, Node.children]

@[simp] theorem leaves_length (alpha : List AlphaEntry) : (leaves alpha).length = alpha.length := by simp [leaves]

theorem freqAt_append {nodes : List Node} (more : List Node) {i : Nat} (h : i < nodes.length) :
    freqAt (nodes ++ more) i = freqAt nodes i := by
  simp [freqAt, List.getElem?_append_left h]

theorem beforeAt_append {nodes : List Node} (more : List Node) {i j : Nat} (hi : i < nodes.length)
    (hj : j < nodes.length) : beforeAt (nodes ++ more) i j = beforeAt nodes i j := by
  simp [beforeAt, List.getElem?_append_left hi, List.getElem?_append_left hj]

/-- Node `N + m` is the merge of the two nodes that come first in the queue of its moment (R134). -/
def MergeAt (alpha : List AlphaEntry) (nodes : List Node) (m : Nat) : Prop :=
  ∃ f l r, nodes[alpha.length + m]? = some (.internal f (BitVec.ofNat 16 m) l r) ∧
    f.toNat = (freqAt nodes l.toNat).toNat + (freqAt nodes r.toNat).toNat ∧
    InQueue nodes (alpha.length + m) l.toNat ∧ InQueue nodes (alpha.length + m) r.toNat ∧ l.toNat ≠ r.toNat ∧
    (∀ c, InQueue nodes (alpha.length + m) c → beforeAt nodes c l.toNat = false) ∧
    (∀ c, InQueue nodes (alpha.length + m) c → c ≠ l.toNat → beforeAt nodes c r.toNat = false)

/-- The sum of the frequencies of the nodes at some indices. -/
def freqSum (nodes : List Node) (q : List Nat) : Nat := (q.map fun i => (freqAt nodes i).toNat).sum

/-- What holds before the merge with sequence id `seq`, with `m` merges to go (R134, R136, R140). -/
structure MergeInv (alpha : List AlphaEntry) (m seq : Nat) (nodes : List Node) (q : List Nat) : Prop where
  toGo : m + seq + 1 = alpha.length
  size : nodes.length = alpha.length + seq
  leaf : ∃ more, nodes = leaves alpha ++ more
  queue : q.length = m + 1
  nodup : q.Nodup
  free : ∀ i, i ∈ q ↔ i < nodes.length ∧ (childList nodes).count i = 0
  once : ∀ i, (childList nodes).count i ≤ 1
  last : nodes.length - 1 ∈ q
  sum : freqSum nodes q = freqTotal alpha
  merges : ∀ k < seq, MergeAt alpha nodes k

theorem freqTotal_lt (alpha : List AlphaEntry) (h : alpha.length ≤ 32768) : freqTotal alpha < 2 ^ 47 := by
  have : ∀ l : List AlphaEntry, freqTotal l ≤ l.length * (2 ^ 32 - 1) := by
    intro l
    induction l with
    | nil => simp [freqTotal]
    | cons e l ih =>
      have := e.freq.isLt
      simp only [freqTotal, List.map_cons, List.sum_cons, List.length_cons] at ih ⊢
      omega
  have := this alpha
  omega

theorem freqSum_congr {nodes nodes' : List Node} {q : List Nat}
    (h : ∀ i ∈ q, freqAt nodes i = freqAt nodes' i) : freqSum nodes q = freqSum nodes' q := by
  unfold freqSum
  congr 1
  exact List.map_congr_left fun i hi => by rw [h i hi]

theorem freqSum_erase {nodes : List Node} {q : List Nat} {a : Nat} (h : a ∈ q) :
    freqSum nodes q = (freqAt nodes a).toNat + freqSum nodes (q.erase a) := by
  have := (List.perm_cons_erase h).map fun i => (freqAt nodes i).toNat
  simpa [freqSum] using this.sum_eq

theorem MergeAt.append {alpha : List AlphaEntry} {nodes : List Node} {k : Nat} (h : MergeAt alpha nodes k)
    (hk : alpha.length + k < nodes.length) (more : List Node) : MergeAt alpha (nodes ++ more) k := by
  obtain ⟨f, l, r, hn, hf, hl, hr, hlr, bl, br⟩ := h
  have free : ∀ c, InQueue (nodes ++ more) (alpha.length + k) c ↔ InQueue nodes (alpha.length + k) c := by
    intro c; unfold InQueue; rw [List.take_append_of_le_length hk.le]
  have lt : ∀ {c}, InQueue nodes (alpha.length + k) c → c < nodes.length := fun h => h.1.trans hk
  refine ⟨f, l, r, by rw [List.getElem?_append_left hk, hn], ?_, (free _).2 hl, (free _).2 hr, hlr, ?_, ?_⟩
  · rw [freqAt_append _ (lt hl), freqAt_append _ (lt hr), hf]
  · intro c hc; rw [free] at hc; rw [beforeAt_append _ (lt hc) (lt hl), bl c hc]
  · intro c hc; rw [free] at hc; rw [beforeAt_append _ (lt hc) (lt hr)]; exact br c hc

/-- One merge keeps the invariant. -/
theorem MergeInv.merge {alpha : List AlphaEntry} {m seq : Nat} {nodes : List Node} {q : List Nat} {a b : Nat}
    (hN : alpha.length ≤ 32768) (h : MergeInv alpha (m + 1) seq nodes q)
    (ha : a ∈ q) (hb : b ∈ q.erase a)
    (la : ∀ c ∈ q, beforeAt nodes c a = false) (lb : ∀ c ∈ q.erase a, beforeAt nodes c b = false) :
    MergeInv alpha m (seq + 1)
      (nodes ++ [.internal (freqAt nodes a + freqAt nodes b) (BitVec.ofNat 16 seq) (BitVec.ofNat 16 a)
        (BitVec.ofNat 16 b)])
      (nodes.length :: (q.erase a).erase b) := by
  have hbq : b ∈ q := List.mem_of_mem_erase hb
  have hne : b ≠ a := (h.nodup.mem_erase_iff.1 hb).1
  have hia := (h.free a).1 ha
  have hib := (h.free b).1 hbq
  have hsz := h.size
  have hgo := h.toGo
  have ta : (BitVec.ofNat 16 a).toNat = a := by simp; omega
  have tb : (BitVec.ofNat 16 b).toNat = b := by simp; omega
  have hlen : nodes.length ∉ (q.erase a).erase b := by
    intro hc
    have := (h.free _).1 (List.mem_of_mem_erase (List.mem_of_mem_erase hc))
    omega
  have hs1 : freqSum nodes q = (freqAt nodes a).toNat + ((freqAt nodes b).toNat + freqSum nodes ((q.erase a).erase b)) := by
    rw [freqSum_erase ha, freqSum_erase hb]
  have htot := freqTotal_lt alpha hN
  have hsum := h.sum
  have hadd : (freqAt nodes a + freqAt nodes b).toNat = (freqAt nodes a).toNat + (freqAt nodes b).toNat := by
    rw [BitVec.toNat_add, Nat.mod_eq_of_lt]; omega
  have hnew : ∀ x : Node, freqAt (nodes ++ [x]) nodes.length = x.freq := by
    intro x; simp [freqAt]
  have cnt : ∀ i, (childList (nodes ++ [Node.internal (freqAt nodes a + freqAt nodes b) (BitVec.ofNat 16 seq)
      (BitVec.ofNat 16 a) (BitVec.ofNat 16 b)])).count i
      = (childList nodes).count i + ((if a = i then 1 else 0) + (if b = i then 1 else 0)) := by
    intro i
    rw [childList_append, List.count_append]
    simp [childList, Node.children, ta, tb, List.count_cons]
    omega
  constructor
  · omega
  · simp; omega
  · obtain ⟨more, rfl⟩ := h.leaf
    exact ⟨_, List.append_assoc ..⟩
  · simp [List.length_erase_of_mem hb, List.length_erase_of_mem ha, h.queue]
  · exact List.nodup_cons.2 ⟨hlen, (h.nodup.erase a).erase b⟩
  · intro i
    rw [cnt, List.mem_cons, (h.nodup.erase a).mem_erase_iff, h.nodup.mem_erase_iff, h.free, List.length_append]
    simp only [List.length_singleton]
    constructor
    · rintro (rfl | ⟨hib', hia', hlt, hc⟩)
      · have : (childList nodes).count nodes.length = 0 := by
          by_contra hc
          have hmem : nodes.length ∈ childList nodes := List.count_pos_iff.1 (by omega)
          obtain ⟨x, hx, hxc⟩ := List.mem_flatMap.1 hmem
          obtain ⟨p, hp, rfl⟩ := List.mem_iff_getElem.1 hx
          obtain ⟨more, hmore⟩ := h.leaf
          by_cases hpl : p < alpha.length
          · have : nodes[p] = (leaves alpha)[p]'(by simpa using hpl) := by
              simp [hmore, List.getElem_append_left (show p < (leaves alpha).length by simpa using hpl)]
            rw [this] at hxc
            simp [leaves, Node.children] at hxc
          · obtain ⟨f, l, r, hn, -, hl, hr, -⟩ := h.merges (p - alpha.length) (by omega)
            rw [show alpha.length + (p - alpha.length) = p by omega, List.getElem?_eq_getElem hp] at hn
            rw [Option.some.inj hn] at hxc
            simp only [Node.children, List.mem_cons, List.not_mem_nil, or_false] at hxc
            have := hl.1; have := hr.1
            omega
        refine ⟨by omega, ?_⟩
        rw [this, if_neg (by omega), if_neg (by omega)]
      · refine ⟨by omega, ?_⟩
        rw [hc, if_neg (Ne.symm hia'), if_neg (Ne.symm hib')]
    · rintro ⟨hlt, hc⟩
      by_cases hn : i = nodes.length
      · exact .inl hn
      · right
        have h1 : a ≠ i := by rintro rfl; simp at hc
        have h2 : b ≠ i := by rintro rfl; simp at hc
        exact ⟨Ne.symm h2, Ne.symm h1, by omega, by omega⟩
  · intro i
    rw [cnt]
    have := h.once i
    by_cases h1 : a = i
    · subst h1; rw [if_pos rfl, if_neg hne]; omega
    · rw [if_neg h1]
      by_cases h2 : b = i
      · subst h2; rw [if_pos rfl]; omega
      · rw [if_neg h2]; omega
  · simp
  · rw [freqSum, List.map_cons, List.sum_cons, hnew]
    have : freqSum (nodes ++ [Node.internal (freqAt nodes a + freqAt nodes b) (BitVec.ofNat 16 seq)
        (BitVec.ofNat 16 a) (BitVec.ofNat 16 b)]) ((q.erase a).erase b) = freqSum nodes ((q.erase a).erase b) := by
      apply freqSum_congr
      intro i hi
      exact freqAt_append _ ((h.free i).1 (List.mem_of_mem_erase (List.mem_of_mem_erase hi))).1
    unfold freqSum at this
    rw [this]
    show (freqAt nodes a + freqAt nodes b).toNat + freqSum nodes ((q.erase a).erase b) = _
    omega
  · intro k hk
    by_cases hks : k < seq
    · exact (h.merges k hks).append (by omega) _
    · have hks : k = seq := by omega
      subst hks
      have free : ∀ c, InQueue (nodes ++ [Node.internal (freqAt nodes a + freqAt nodes b) (BitVec.ofNat 16 k)
          (BitVec.ofNat 16 a) (BitVec.ofNat 16 b)]) (alpha.length + k) c ↔ c ∈ q := by
        intro c
        unfold InQueue
        rw [← hsz, List.take_left, h.free]
      have lt : ∀ {c}, c ∈ q → c < nodes.length := fun hc => ((h.free _).1 hc).1
      refine ⟨_, _, _, by rw [← hsz, List.getElem?_concat_length], ?_, ?_, ?_, ?_, ?_, ?_⟩
      · rw [ta, tb, freqAt_append _ (lt ha), freqAt_append _ (lt hbq), hadd]
      · rw [ta, free]; exact ha
      · rw [tb, free]; exact hbq
      · rw [ta, tb]; exact hne.symm
      · intro c hc
        rw [free] at hc
        rw [ta, beforeAt_append _ (lt hc) (lt ha)]; exact la c hc
      · intro c hc hca
        rw [free] at hc
        rw [ta] at hca
        rw [tb, beforeAt_append _ (lt hc) (lt hbq)]
        exact lb c (h.nodup.mem_erase_iff.2 ⟨hca, hc⟩)

/-- The merge loop runs to its end, and ends with the invariant and no merge to go: the check of R136 never fires. -/
theorem mergeLoop_spec {alpha : List AlphaEntry} (hN : alpha.length ≤ 32768) :
    ∀ (m seq : Nat) (nodes : List Node) (q : List Nat), MergeInv alpha m seq nodes q →
      ∃ out root, mergeLoop m seq nodes q = .ok out ∧ MergeInv alpha 0 (seq + m) out [root]
  | 0, seq, nodes, q, h => by
    obtain ⟨root, rfl⟩ := List.length_eq_one_iff.1 h.queue
    exact ⟨nodes, root, rfl, h⟩
  | m + 1, seq, nodes, q, h => by
    obtain ⟨a, ea, ha, la⟩ := extractMin_spec nodes (q := q) (by rintro rfl; simpa using h.queue)
    obtain ⟨b, eb, hb, lb⟩ := extractMin_spec nodes (q := q.erase a) (by
      intro e
      have := List.length_erase_of_mem ha
      rw [e, h.queue] at this; simp at this)
    obtain ⟨out, root, e, hout⟩ := mergeLoop_spec hN m (seq + 1) _ _ (h.merge hN ha hb la lb)
    refine ⟨out, root, by simp only [mergeLoop, ea, eb, e], ?_⟩
    rwa [show seq + (m + 1) = seq + 1 + m by omega]

/-- The invariant holds before the first merge. -/
theorem MergeInv.start {alpha : List AlphaEntry} (h1 : 1 ≤ alpha.length) :
    MergeInv alpha (alpha.length - 1) 0 (leaves alpha) (List.range alpha.length) where
  toGo := by omega
  size := by simp
  leaf := ⟨[], by simp⟩
  queue := by simp; omega
  nodup := List.nodup_range
  free := by intro i; simp
  once := by simp
  last := by simp; omega
  sum := by
    unfold freqSum freqTotal
    congr 1
    apply List.ext_getElem
    · simp
    · intro i h1 h2
      have hi : i < alpha.length := by simpa using h1
      simp only [List.getElem_map, List.getElem_range, freqAt, leaves, List.getElem?_map,
        List.getElem?_eq_getElem hi, Option.map_some, Node.freq, BitVec.toNat_setWidth]
      exact Nat.mod_eq_of_lt (lt_trans (alpha[i].freq.isLt) (by norm_num))
  merges := by intro k hk; omega

/-- BUILD's nodes: the loop ends well, with the invariant, and the root is node 2N - 2 (R134, R136). -/
theorem buildNodes_spec {alpha : List AlphaEntry} (h1 : 1 ≤ alpha.length) (hN : alpha.length ≤ 32768) :
    ∃ out, buildNodes alpha = .ok out ∧ MergeInv alpha 0 (alpha.length - 1) out [2 * alpha.length - 2] := by
  obtain ⟨out, root, e, h⟩ := mergeLoop_spec hN _ _ _ _ (MergeInv.start h1)
  rw [Nat.zero_add] at h
  have : root = 2 * alpha.length - 2 := by
    have := h.last
    rw [List.mem_singleton] at this
    have := h.size
    omega
  exact ⟨out, e, this ▸ h⟩

/-- The finished merge is the tree of R27, R28 and R30. -/
theorem MergeInv.treeWf {alpha : List AlphaEntry} {nodes : List Node} (h1 : 1 ≤ alpha.length)
    (h : MergeInv alpha 0 (alpha.length - 1) nodes [2 * alpha.length - 2]) : TreeWf alpha nodes where
  size := by have := h.size; omega
  leaf := by
    intro i e he
    obtain ⟨more, rfl⟩ := h.leaf
    have hi : i < alpha.length := (List.getElem?_eq_some_iff.1 he).1
    rw [List.getElem?_append_left (by simpa using hi)]
    simp [leaves, he]
  merge := by
    intro m hm
    obtain ⟨f, l, r, hn, hf, hl, hr, -⟩ := h.merges m (by omega)
    exact ⟨f, l, r, hn, hl.1, hr.1, hf⟩
  parent := by
    intro i hi
    have hs := h.size
    have h0 : ¬ i ∈ [2 * alpha.length - 2] := by rw [List.mem_singleton]; omega
    rw [h.free] at h0
    have := h.once i
    by_contra hc
    exact h0 ⟨by omega, by omega⟩
  rootFree := by
    have hs := h.size
    have : 2 * alpha.length - 2 ∈ [2 * alpha.length - 2] := by simp
    rw [h.free] at this
    rw [show nodes.length - 1 = 2 * alpha.length - 2 by omega]
    exact this.2

end Sys2Proof.Machine
end

