-- ==== Sys2Proof/Laws/Codes.lean ====
section
/-! SUPPORT. What the traversal of DERIVE does on a tree (42_code_table_gen.md R160, R162, R163): one invariant of the
walk, from which the codes' paths, their lengths and the Kraft sum follow. -/

namespace Sys2Proof.Machine

/-! ### Trees -/

theorem follow_append (nodes : List Node) (p q : Code) :
    ∀ i, follow nodes i (p ++ q) = (follow nodes i p).bind fun j => follow nodes j q := by
  induction p with
  | nil => intro i; rfl
  | cons b p ih =>
    intro i
    simp only [List.cons_append, follow]
    split
    · exact ih _
    · rfl

/-- A path that leads to a leaf does not go on, so no other path begins with it. -/
theorem follow_past_leaf {nodes : List Node} {i k : Nat} {p q : Code} {f : NodeFreq} {sym : Sym}
    (h : follow nodes i p = some k) (hk : nodes[k]? = some (Node.leaf f sym)) (hq : q ≠ []) :
    follow nodes i (p ++ q) = none := by
  rw [follow_append, h]
  cases q with
  | nil => exact absurd rfl hq
  | cons b q => simp [follow, hk]

namespace TreeWf

variable {alpha : List AlphaEntry} {nodes : List Node} (h : TreeWf alpha nodes)

include h

theorem internal_of_ge {i : Nat} (hi : i < nodes.length) (hn : alpha.length ≤ i) :
    ∃ f l r, nodes[i]? = some (Node.internal f (BitVec.ofNat 16 (i - alpha.length)) l r) ∧
      l.toNat < i ∧ r.toNat < i := by
  have := h.size
  obtain ⟨f, l, r, e, hl, hr, -⟩ := h.merge (i - alpha.length) (by omega)
  rw [show alpha.length + (i - alpha.length) = i by omega] at e hl hr
  exact ⟨f, l, r, e, hl, hr⟩

theorem leaf_of_lt {i : Nat} (hi : i < alpha.length) :
    ∃ f sym, nodes[i]? = some (Node.leaf f sym) :=
  ⟨_, _, h.leaf i _ (List.getElem?_eq_getElem hi)⟩

theorem childList_nodup : (childList nodes).Nodup := by
  rw [List.nodup_iff_count_le_one]
  intro i
  rcases Nat.lt_trichotomy (i + 1) nodes.length with hi | hi | hi
  · rw [h.parent i hi]
  · have := h.rootFree
    rw [show nodes.length - 1 = i by omega] at this
    omega
  · by_contra hc
    obtain ⟨x, hx, hxc⟩ := List.mem_flatMap.1 (List.count_pos_iff.1 (show 0 < (childList nodes).count i by omega))
    obtain ⟨p, hp, rfl⟩ := List.mem_iff_getElem.1 hx
    by_cases hpn : p < alpha.length
    · obtain ⟨f, sym, e⟩ := h.leaf_of_lt hpn
      rw [List.getElem?_eq_getElem hp] at e
      rw [Option.some.inj e] at hxc; simp [Node.children] at hxc
    · obtain ⟨f, l, r, e, hl, hr⟩ := h.internal_of_ge hp (by omega)
      rw [List.getElem?_eq_getElem hp] at e
      rw [Option.some.inj e] at hxc
      simp [Node.children] at hxc
      omega

/-- Every node but the root has a parent, with a larger index. -/
theorem exists_parent {i : Nat} (hi : i + 1 < nodes.length) :
    ∃ p f s l r, nodes[p]? = some (Node.internal f s l r) ∧ i < p ∧ (i = l.toNat ∨ i = r.toNat) := by
  obtain ⟨x, hx, hxc⟩ := List.mem_flatMap.1 (List.count_pos_iff.1 (show 0 < (childList nodes).count i by
    rw [h.parent i hi]; omega))
  obtain ⟨p, hp, rfl⟩ := List.mem_iff_getElem.1 hx
  by_cases hpn : p < alpha.length
  · obtain ⟨f, sym, e⟩ := h.leaf_of_lt hpn
    rw [List.getElem?_eq_getElem hp] at e
    rw [Option.some.inj e] at hxc; simp [Node.children] at hxc
  · obtain ⟨f, l, r, e, hl, hr⟩ := h.internal_of_ge hp (by omega)
    refine ⟨p, f, _, l, r, e, ?_, ?_⟩ <;>
    · rw [List.getElem?_eq_getElem hp] at e
      rw [Option.some.inj e] at hxc
      simp [Node.children] at hxc
      omega

/-- A node has one parent. -/
theorem parent_unique {i p p' : Nat} {x x' : Node} (hx : nodes[p]? = some x) (hx' : nodes[p']? = some x')
    (hi : i ∈ x.children) (hi' : i ∈ x'.children) : p = p' := by
  obtain ⟨hp, rfl⟩ := List.getElem?_eq_some_iff.1 hx
  obtain ⟨hp', rfl⟩ := List.getElem?_eq_some_iff.1 hx'
  have hd := (List.nodup_flatMap.1 h.childList_nodup).2
  rw [List.pairwise_iff_getElem] at hd
  rcases Nat.lt_trichotomy p p' with hlt | heq | hgt
  · exact absurd hi' (hd p p' hp hp' hlt hi)
  · exact heq
  · exact absurd hi (hd p' p hp' hp hgt hi')

theorem children_ne {p : Nat} {f : NodeFreq} {s l r : NodeIdx} (hx : nodes[p]? = some (Node.internal f s l r)) :
    l.toNat ≠ r.toNat := by
  obtain ⟨hp, e⟩ := List.getElem?_eq_some_iff.1 hx
  have := (List.nodup_flatMap.1 h.childList_nodup).1 _ (List.getElem_mem hp)
  rw [e] at this
  simpa [Node.children] using this

end TreeWf

/-! ### The walk -/

/-- The share of a code in the Kraft sum, in units of 2^-d; an entry with no code yet has none. -/
def share (d : Nat) (c : Code) : Nat := if c = [] then 0 else 2 ^ (d - c.length)

/-- The indices on the stack. -/
def stackIdx (st : List (Nat × Code)) : List Nat := st.map Prod.fst

/-- What holds at each step of the walk over the tree of an alphabet of two symbols or more; `seen` are the nodes
visited. -/
structure WalkInv (alpha : List AlphaEntry) (nodes : List Node) (seen : List Nat) (st : List (Nat × Code))
    (table : List Code) : Prop where
  nodup : (seen ++ stackIdx st).Nodup
  bound : ∀ i ∈ seen ++ stackIdx st, i < nodes.length
  root : nodes.length - 1 ∈ seen ++ stackIdx st
  /-- a node is met only below a visited one -/
  above : ∀ i ∈ seen ++ stackIdx st, i + 1 < nodes.length → ∃ p ∈ seen, ∃ x, nodes[p]? = some x ∧ i ∈ x.children
  /-- and all children of a visited one are met -/
  below : ∀ p ∈ seen, ∀ x, nodes[p]? = some x → ∀ i ∈ x.children, i ∈ seen ++ stackIdx st
  path : ∀ e ∈ st, follow nodes (nodes.length - 1) e.2 = some e.1 ∧ e.2.length + e.1 + 1 ≤ nodes.length ∧
    e.2.length + 1 ≤ alpha.length ∧ (e.2 = [] → e.1 + 1 = nodes.length)
  size : table.length = alpha.length
  unset : ∀ k, k < alpha.length → k ∉ seen → table[k]? = some []
  set : ∀ k, k < alpha.length → k ∈ seen → ∃ c, table[k]? = some c ∧ c ≠ [] ∧ c.length + 1 ≤ alpha.length ∧
    follow nodes (nodes.length - 1) c = some k
  kraft : (st.map fun e => 2 ^ (alpha.length - e.2.length)).sum + (table.map (share alpha.length)).sum
    = 2 ^ alpha.length

theorem sum_share_set (d : Nat) (p : Code) (hp : p ≠ []) : ∀ (table : List Code) (i : Nat), table[i]? = some [] →
    ((table.set i p).map (share d)).sum = (table.map (share d)).sum + 2 ^ (d - p.length)
  | [], i, h => by simp at h
  | c :: table, 0, h => by
    simp only [List.getElem?_cons_zero, Option.some.injEq] at h
    simp [share, h, hp]; omega
  | c :: table, i + 1, h => by
    simp only [List.getElem?_cons_succ] at h
    simp only [List.set_cons_succ, List.map_cons, List.sum_cons, sum_share_set d p hp table i h]; omega

theorem WalkInv.start {alpha : List AlphaEntry} {nodes : List Node} (h : TreeWf alpha nodes)
    (h2 : 2 ≤ alpha.length) :
    WalkInv alpha nodes [] [(nodes.length - 1, [])] (List.replicate alpha.length []) := by
  have hs := h.size
  constructor
  · simp [stackIdx]
  · simp [stackIdx]; omega
  · simp [stackIdx]
  · intro i hi; simp [stackIdx] at hi; omega
  · simp
  · intro e he
    simp only [List.mem_singleton] at he
    subst he
    refine ⟨rfl, ?_, ?_, ?_⟩ <;> simp <;> omega
  · simp
  · intro k hk _; simp [hk]
  · simp
  · simp [share]

/-- Visiting a leaf keeps the invariant. -/
theorem WalkInv.visitLeaf {alpha : List AlphaEntry} {nodes : List Node} (h : TreeWf alpha nodes)
    (h2 : 2 ≤ alpha.length) {seen : List Nat} {i : Nat} {p : Code} {st : List (Nat × Code)} {table : List Code}
    (w : WalkInv alpha nodes seen ((i, p) :: st) table) (hi : i < alpha.length) :
    p ≠ [] ∧ WalkInv alpha nodes (i :: seen) st (table.set i p) := by
  have hs := h.size
  obtain ⟨hf, hlen, hlen', hnil⟩ := w.path (i, p) (by simp)
  have hp : p ≠ [] := by rintro rfl; have := hnil rfl; omega
  have hperm : (i :: seen ++ stackIdx st).Perm (seen ++ stackIdx ((i, p) :: st)) := by
    simp only [stackIdx, List.map_cons, List.cons_append]
    exact List.perm_middle.symm
  have hmem : ∀ j, j ∈ i :: seen ++ stackIdx st ↔ j ∈ seen ++ stackIdx ((i, p) :: st) := fun j => hperm.mem_iff
  have hseen : i ∉ seen := by
    have := w.nodup
    rw [List.nodup_append] at this
    intro hc
    exact this.2.2 i hc i (by simp [stackIdx]) rfl
  refine ⟨hp, hperm.nodup_iff.2 w.nodup, ?_, ?_, ?_, ?_, ?_, ?_, ?_, ?_, ?_⟩
  · intro j hj; exact w.bound j ((hmem j).1 hj)
  · exact (hmem _).2 w.root
  · intro j hj hj'
    obtain ⟨q, hq, x, hx⟩ := w.above j ((hmem j).1 hj) hj'
    exact ⟨q, List.mem_cons_of_mem _ hq, x, hx⟩
  · intro q hq x hx j hj
    rcases List.mem_cons.1 hq with rfl | hq
    · obtain ⟨f, sym, e⟩ := h.leaf_of_lt hi
      rw [hx] at e
      rw [Option.some.inj e] at hj; simp [Node.children] at hj
    · exact (hmem j).2 (w.below q hq x hx j hj)
  · intro e he; exact w.path e (List.mem_cons_of_mem _ he)
  · simpa using w.size
  · intro k hk hks
    have hki : i ≠ k := by rintro rfl; simp at hks
    rw [List.getElem?_set_ne hki]
    exact w.unset k hk fun hc => hks (List.mem_cons_of_mem _ hc)
  · intro k hk hks
    by_cases hki : i = k
    · subst hki
      refine ⟨p, ?_, hp, hlen', hf⟩
      rw [List.getElem?_set_self]; rw [w.size]; exact hk
    · rw [List.getElem?_set_ne hki]
      exact w.set k hk ((List.mem_cons.1 hks).resolve_left (Ne.symm hki))
  · have := w.kraft
    rw [sum_share_set _ p hp _ _ (w.unset i hi hseen)]
    simp only [List.map_cons, List.sum_cons] at this
    omega

/-- Visiting an internal node keeps the invariant. -/
theorem WalkInv.visitInternal {alpha : List AlphaEntry} {nodes : List Node} (h : TreeWf alpha nodes)
    {seen : List Nat} {i : Nat} {p : Code} {st : List (Nat × Code)} {table : List Code}
    {f : NodeFreq} {s l r : NodeIdx}
    (w : WalkInv alpha nodes seen ((i, p) :: st) table) (hx : nodes[i]? = some (Node.internal f s l r)) :
    WalkInv alpha nodes (i :: seen) ((l.toNat, p ++ [false]) :: (r.toNat, p ++ [true]) :: st) table := by
  have hs := h.size
  obtain ⟨hil, hie⟩ := List.getElem?_eq_some_iff.1 hx
  have hin : alpha.length ≤ i := by
    by_contra hc
    obtain ⟨f', sym, e⟩ := h.leaf_of_lt (show i < alpha.length by omega)
    rw [hx] at e; cases e
  obtain ⟨f', l', r', e', hl', hr'⟩ := h.internal_of_ge hil hin
  rw [hx] at e'
  obtain ⟨rfl, rfl, rfl, rfl⟩ : f = f' ∧ s = _ ∧ l = l' ∧ r = r' := by simpa using e'
  obtain ⟨hf, hlen, hlen', hnil⟩ := w.path (i, p) (by simp)
  simp only at hlen
  have hperm : (seen ++ stackIdx ((i, p) :: st)).Perm (i :: seen ++ stackIdx st) := by
    simp only [stackIdx, List.map_cons, List.cons_append]
    exact List.perm_middle
  have hseen : i ∉ seen := by
    have := w.nodup
    rw [List.nodup_append] at this
    intro hc
    exact this.2.2 i hc i (by simp [stackIdx]) rfl
  -- a child of `i` has not been met: its only parent `i` has not been visited
  have fresh : ∀ j ∈ (Node.internal f (BitVec.ofNat 16 (i - alpha.length)) l r).children,
      j ∉ seen ++ stackIdx ((i, p) :: st) := by
    intro j hj hc
    have hji : j < i := by
      simp only [Node.children, List.mem_cons, List.not_mem_nil, or_false] at hj
      rcases hj with rfl | rfl <;> assumption
    obtain ⟨q, hq, x, hqx, hjx⟩ := w.above j hc (by omega)
    have := h.parent_unique hqx hx hjx hj
    exact hseen (this ▸ hq)
  have hne := h.children_ne hx
  have hperm2 : (i :: seen ++ stackIdx ((l.toNat, p ++ [false]) :: (r.toNat, p ++ [true]) :: st)).Perm
      (l.toNat :: r.toNat :: (seen ++ stackIdx ((i, p) :: st))) := by
    have : (i :: seen ++ stackIdx ((l.toNat, p ++ [false]) :: (r.toNat, p ++ [true]) :: st))
        = (i :: seen) ++ ([l.toNat, r.toNat] ++ stackIdx st) := by simp [stackIdx]
    rw [this, show l.toNat :: r.toNat :: (seen ++ stackIdx ((i, p) :: st))
      = [l.toNat, r.toNat] ++ (seen ++ stackIdx ((i, p) :: st)) from rfl]
    refine (List.perm_append_comm_assoc _ _ _).trans ?_
    exact List.Perm.append_left _ hperm.symm
  have hmem : ∀ j, j ∈ i :: seen ++ stackIdx ((l.toNat, p ++ [false]) :: (r.toNat, p ++ [true]) :: st) ↔
      j = l.toNat ∨ j = r.toNat ∨ j ∈ seen ++ stackIdx ((i, p) :: st) := by
    intro j; rw [hperm2.mem_iff]; simp only [List.mem_cons]
  refine ⟨?_, ?_, ?_, ?_, ?_, ?_, w.size, ?_, ?_, ?_⟩
  · rw [hperm2.nodup_iff]
    refine List.nodup_cons.2 ⟨?_, List.nodup_cons.2 ⟨fresh _ (by simp [Node.children]), w.nodup⟩⟩
    rw [List.mem_cons, not_or]
    exact ⟨hne, fresh _ (by simp [Node.children])⟩
  · intro j hj
    rcases (hmem j).1 hj with rfl | rfl | hj
    · omega
    · omega
    · exact w.bound j hj
  · exact (hmem _).2 (.inr (.inr w.root))
  · intro j hj hj'
    rcases (hmem j).1 hj with rfl | rfl | hj
    · exact ⟨i, by simp, _, hx, by simp [Node.children]⟩
    · exact ⟨i, by simp, _, hx, by simp [Node.children]⟩
    · obtain ⟨q, hq, hr⟩ := w.above j hj hj'
      exact ⟨q, List.mem_cons_of_mem _ hq, hr⟩
  · intro q hq x hqx j hj
    rw [hmem]
    rcases List.mem_cons.1 hq with rfl | hq
    · rw [hx] at hqx
      rw [← Option.some.inj hqx] at hj
      simp only [Node.children, List.mem_cons, List.not_mem_nil, or_false] at hj
      tauto
    · exact .inr (.inr (w.below q hq x hqx j hj))
  · intro e he
    rcases List.mem_cons.1 he with rfl | he
    · refine ⟨?_, ?_, ?_, ?_⟩
      · rw [follow_append, hf]; simp [follow, hx]
      · simp; omega
      · simp; omega
      · simp
    rcases List.mem_cons.1 he with rfl | he
    · refine ⟨?_, ?_, ?_, ?_⟩
      · rw [follow_append, hf]; simp [follow, hx]
      · simp; omega
      · simp; omega
      · simp
    · exact w.path e (List.mem_cons_of_mem _ he)
  · intro k hk hks
    exact w.unset k hk fun hc => hks (List.mem_cons_of_mem _ hc)
  · intro k hk hks
    rcases List.mem_cons.1 hks with rfl | hks
    · omega
    · exact w.set k hk hks
  · have hk := w.kraft
    simp only [List.map_cons, List.sum_cons, List.length_append, List.length_singleton] at hk ⊢
    have : 2 ^ (alpha.length - p.length) = 2 * 2 ^ (alpha.length - (p.length + 1)) := by
      rw [← Nat.pow_succ']; congr 1; omega
    omega

/-- A table of codes as DERIVE leaves it: each entry is the path from the root to its leaf (R160, R162). -/
structure CodesOf (alpha : List AlphaEntry) (nodes : List Node) (table : List Code) : Prop where
  size : table.length = alpha.length
  path : ∀ k, k < alpha.length → ∃ c, table[k]? = some c ∧ 1 ≤ c.length ∧ c.length + 1 ≤ alpha.length ∧
    follow nodes (nodes.length - 1) c = some k
  kraft : (table.map fun c => 2 ^ (alpha.length - c.length)).sum = 2 ^ alpha.length

/-- When the stack is empty every node has been visited. -/
theorem WalkInv.finish {alpha : List AlphaEntry} {nodes : List Node} (h : TreeWf alpha nodes)
    (h2 : 2 ≤ alpha.length) {seen : List Nat} {table : List Code} (w : WalkInv alpha nodes seen [] table) :
    CodesOf alpha nodes table := by
  have hs := h.size
  have hnil : seen ++ stackIdx [] = seen := by simp [stackIdx]
  have all : ∀ d i, i + d + 1 = nodes.length → i ∈ seen := by
    intro d
    induction d using Nat.strong_induction_on with
    | _ d ih =>
      intro i hi
      rcases Nat.eq_zero_or_pos d with rfl | hd
      · have := w.root
        rwa [hnil, show nodes.length - 1 = i by omega] at this
      · obtain ⟨p, f, s, l, r, hx, hip, hc⟩ := h.exists_parent (show i + 1 < nodes.length by omega)
        have hp : p < nodes.length := (List.getElem?_eq_some_iff.1 hx).1
        have hps := ih (nodes.length - 1 - p) (by omega) p (by omega)
        have := w.below p hps _ hx i (by simpa [Node.children] using hc)
        rwa [hnil] at this
  have set : ∀ k, k < alpha.length → ∃ c, table[k]? = some c ∧ c ≠ [] ∧ c.length + 1 ≤ alpha.length ∧
      follow nodes (nodes.length - 1) c = some k := fun k hk =>
    w.set k hk (all (nodes.length - 1 - k) k (by omega))
  refine ⟨w.size, ?_, ?_⟩
  · intro k hk
    obtain ⟨c, e, hc, hl, hf⟩ := set k hk
    exact ⟨c, e, List.length_pos_iff.2 hc, hl, hf⟩
  · have hk := w.kraft
    simp only [List.map_nil, List.sum_nil, Nat.zero_add] at hk
    rw [← hk]
    congr 1
    apply List.map_congr_left
    intro c hc
    obtain ⟨k, hk', rfl⟩ := List.mem_iff_getElem.1 hc
    obtain ⟨c, e, hc, -⟩ := set k (by have := w.size; omega)
    rw [List.getElem?_eq_getElem hk'] at e
    rw [Option.some.inj e]
    simp [share, hc]

/-- The walk over a tree ends well, with every leaf's path in the table: the check of R163 never fires, and the fuel is
enough. -/
theorem walk_spec {alpha : List AlphaEntry} {nodes : List Node} (h : TreeWf alpha nodes) (h2 : 2 ≤ alpha.length) :
    ∀ (fuel : Nat) (seen : List Nat) (st : List (Nat × Code)) (table : List Code),
      WalkInv alpha nodes seen st table → seen.length + fuel = nodes.length →
      ∃ out, walk nodes alpha.length fuel st table = .ok out ∧ CodesOf alpha nodes out
  | 0, seen, [], table, w, _ => ⟨table, rfl, w.finish h h2⟩
  | fuel + 1, seen, [], table, w, _ => ⟨table, rfl, w.finish h h2⟩
  | 0, seen, e :: st, table, w, hf => by
    -- the visited nodes are all nodes, so nothing can be left on the stack
    exfalso
    have h1 : (seen ++ stackIdx (e :: st)).length ≤ (List.range nodes.length).length :=
      (w.nodup.subperm fun i hi => List.mem_range.2 (w.bound i hi)).length_le
    simp [stackIdx] at h1
    omega
  | fuel + 1, seen, (i, p) :: st, table, w, hf => by
    have hi : i < nodes.length := w.bound i (by simp [stackIdx])
    by_cases hn : i < alpha.length
    · obtain ⟨f, sym, e⟩ := h.leaf_of_lt hn
      obtain ⟨hp, w'⟩ := w.visitLeaf h h2 hn
      obtain ⟨out, eo, ho⟩ := walk_spec h h2 fuel _ _ _ w' (by simp; omega)
      refine ⟨out, ?_, ho⟩
      have : ¬ (p = [] ∨ alpha.length ≤ i) := by rintro (hc | hc); exacts [hp hc, by omega]
      simp only [walk, e, if_neg this, eo]
    · obtain ⟨f, l, r, e, -, -⟩ := h.internal_of_ge hi (by omega)
      obtain ⟨out, eo, ho⟩ := walk_spec h h2 fuel _ _ _ (w.visitInternal h e) (by simp; omega)
      exact ⟨out, by simp only [walk, e, eo], ho⟩

/-- DERIVE's codes on a tree of two symbols or more. -/
theorem deriveCodes_spec {alpha : List AlphaEntry} {nodes : List Node} (h : TreeWf alpha nodes)
    (h2 : 2 ≤ alpha.length) :
    ∃ out, deriveCodes nodes alpha.length (2 * alpha.length - 2) = .ok out ∧ CodesOf alpha nodes out := by
  have hs := h.size
  rw [show 2 * alpha.length - 2 = nodes.length - 1 by omega]
  exact walk_spec h h2 nodes.length [] _ _ (WalkInv.start h h2) (by simp)

/-- The paths to two leaves do not begin one another (R162). -/
theorem CodesOf.free {alpha : List AlphaEntry} {nodes : List Node} {table : List Code} (h : TreeWf alpha nodes)
    (c : CodesOf alpha nodes table) : table.Pairwise fun c d => ¬ c <+: d ∧ ¬ d <+: c := by
  have key : ∀ j k (hj : j < table.length) (hk : k < table.length), j ≠ k → ¬ table[j] <+: table[k] := by
    rintro j k hj hk hjk ⟨q, hq⟩
    have hs := c.size
    obtain ⟨cj, ej, -, -, fj⟩ := c.path j (by omega)
    obtain ⟨ck, ek, -, -, fk⟩ := c.path k (by omega)
    rw [List.getElem?_eq_getElem hj] at ej
    rw [List.getElem?_eq_getElem hk] at ek
    rw [Option.some.inj ej, Option.some.inj ek] at hq
    obtain ⟨f, sym, e⟩ := h.leaf_of_lt (show j < alpha.length by omega)
    by_cases hq0 : q = []
    · subst hq0
      rw [List.append_nil] at hq
      rw [hq, fk] at fj
      exact hjk (Option.some.inj fj).symm
    · rw [← hq, follow_past_leaf fj e hq0] at fk
      cases fk
  rw [List.pairwise_iff_getElem]
  intro j k hj hk hlt
  exact ⟨key j k hj hk (by omega), key k j hk hj (by omega)⟩

end Sys2Proof.Machine
end

