-- ==== Sys2Proof/Laws/Encoding.lean ====
section
/-! SUPPORT. The word and its fields are the same thing (30_encoding.md R81): neither way loses a bit. -/

namespace Sys2Proof

theorem Fields.ofWord_word (f : Fields) : Fields.ofWord f.word = f := by
  cases f with | mk op rsv b val =>
  simp only [Fields.ofWord, Fields.word, Fields.mk.injEq]
  refine ⟨?_, ?_, ?_, ?_⟩ <;>
  · apply BitVec.eq_of_getLsbD_eq
    intro i hi
    simp only [BitVec.getLsbD_extractLsb', BitVec.getLsbD_append]
    interval_cases i <;> simp

theorem Fields.word_ofWord (cw : Word) : (Fields.ofWord cw).word = cw := by
  simp only [Fields.ofWord, Fields.word]
  apply BitVec.eq_of_getLsbD_eq
  intro i hi
  simp only [BitVec.getLsbD_extractLsb', BitVec.getLsbD_append]
  interval_cases i <;> simp

end Sys2Proof
end

