-- ==== Sys2Proof/Laws/Packing.lean ====
section
/-! SUPPORT. What the packing primitives do (43_bit_packer.md R182, R183), each said once: to the bitstream, to the
counters, to the sink, and to nothing else. -/

namespace Sys2Proof.Machine

/-! ### Bits and bytes -/

theorem getLsbD_shiftIn (acc : Byte) (b : Bool) (j : Nat) (hj : j < 8) :
    (shiftIn acc b).getLsbD j = if j = 0 then b else acc.getLsbD (j - 1) := by
  rcases j with _ | j
  · simp [shiftIn]
  · have : j < 7 := by omega
    simp [shiftIn, hj]
    exact (BitVec.getLsbD_eq_getElem _).symm

@[simp] theorem accBits_length (acc : Byte) (n : Nat) : (accBits acc n).length = n := by simp [accBits]

@[simp] theorem accBits_zero (acc : Byte) : accBits acc 0 = [] := rfl

@[simp] theorem byteBits_length (b : Byte) : (byteBits b).length = 8 := by simp [byteBits]

theorem byteBits_eq_accBits (b : Byte) : byteBits b = accBits b 8 := rfl

/-- Shifting a bit in appends it to the bits of ACC. -/
theorem accBits_shiftIn (acc : Byte) (b : Bool) (n : Nat) (hn : n < 8) :
    accBits (shiftIn acc b) (n + 1) = accBits acc n ++ [b] := by
  apply List.ext_getElem
  · simp
  · intro i h1 h2
    have hi : i ≤ n := by simpa [Nat.lt_succ_iff] using h1
    simp only [accBits, List.getElem_map, List.getElem_range, List.getElem_append, List.length_map, List.length_range]
    rw [getLsbD_shiftIn _ _ _ (by omega)]
    rcases Nat.lt_or_eq_of_le hi with h | rfl
    · rw [if_neg (by omega), dif_pos h]; congr 1; omega
    · simp

/-- The pad byte of FINISH: the bits of ACC, then zero bits. -/
theorem byteBits_pad (acc : Byte) (n : Nat) (hn : n ≤ 8) :
    byteBits (acc <<< (8 - n)) = accBits acc n ++ List.replicate (8 - n) false := by
  apply List.ext_getElem
  · simp; omega
  · intro i h1 h2
    have hi : i < 8 := by simpa using h1
    simp only [byteBits, accBits, List.getElem_map, List.getElem_range, List.getElem_append, List.length_map,
      List.length_range, List.getElem_replicate, BitVec.getLsbD_shiftLeft]
    split
    · have : ¬ 7 - i < 8 - n := by omega
      simp only [this, decide_false, Bool.not_false, Bool.and_true]
      have h7 : 7 - i < 8 := by omega
      simp only [h7, decide_true, Bool.true_and]
      congr 1; omega
    · have : 7 - i < 8 - n := by omega
      simp [this]

@[simp] theorem bytesBits_nil : bytesBits [] = [] := rfl

@[simp] theorem bytesBits_append (xs ys : List Byte) : bytesBits (xs ++ ys) = bytesBits xs ++ bytesBits ys := by
  simp [bytesBits]

@[simp] theorem bytesBits_singleton (b : Byte) : bytesBits [b] = byteBits b := by simp [bytesBits]

@[simp] theorem bytesBits_length (bs : List Byte) : (bytesBits bs).length = 8 * bs.length := by
  induction bs with
  | nil => rfl
  | cons b bs ih => simp [bytesBits] at ih ⊢; omega

/-- Bytes are determined by their bits. -/
theorem byteBits_injective {a b : Byte} (h : byteBits a = byteBits b) : a = b := by
  apply BitVec.eq_of_getLsbD_eq
  intro i hi
  have := congrArg (fun l => l[7 - i]?) h
  simp only [byteBits, List.getElem?_map, List.getElem?_range (show 7 - i < 8 by omega), Option.map_some,
    Option.some.injEq] at this
  rwa [show 7 - (7 - i) = i by omega] at this

theorem bytesBits_injective : ∀ {xs ys : List Byte}, bytesBits xs = bytesBits ys → xs = ys
  | [], [], _ => rfl
  | [], y :: ys, h => by have := congrArg List.length h; simp at this
  | x :: xs, [], h => by have := congrArg List.length h; simp at this
  | x :: xs, y :: ys, h => by
    rw [show x :: xs = [x] ++ xs from rfl, show y :: ys = [y] ++ ys from rfl] at h ⊢
    simp only [bytesBits_append, bytesBits_singleton] at h
    obtain ⟨h1, h2⟩ := List.append_inj h (by simp)
    rw [byteBits_injective h1, bytesBits_injective h2]

/-! ### The log of writes -/

@[simp] theorem okBytes_append (xs ys : List SinkWrite) : okBytes (xs ++ ys) = okBytes xs ++ okBytes ys := by
  simp [okBytes]

@[simp] theorem okBytes_ok (bs : List Byte) : okBytes [⟨bs, some .ok⟩] = bs := by simp [okBytes]

@[simp] theorem okBytes_fail (bs : List Byte) : okBytes [⟨bs, some .fail⟩] = [] := by simp [okBytes]

@[simp] theorem okCount_append (xs ys : List SinkWrite) : okCount (xs ++ ys) = okCount xs + okCount ys := by
  simp [okCount]

/-! ### AppendBit and FlushBuf -/

/-- The state a packing primitive ends in. -/
def PackResult.state : PackResult → State
  | .ok t => t
  | .ioFail t => t
  | .hang t => t

/-- What packing never touches: everything but the packer, the answers it draws and the writes it issues. -/
structure SameOutsidePacker (s t : State) : Prop where
  phase : t.phase = s.phase
  treeValid : t.treeValid = s.treeValid
  codesValid : t.codesValid = s.codesValid
  lastErr : t.lastErr = s.lastErr
  faultCause : t.faultCause = s.faultCause
  alpha : t.alpha = s.alpha
  node : t.node = s.node
  root : t.root = s.root
  code : t.code = s.code
  bufSize : t.bufSize = s.bufSize
  params : t.params = s.params
  host : t.host = s.host
  pos : t.pos = s.pos
  responses : t.responses = s.responses
  runStart : t.runStart = s.runStart
  runAnswered : t.runAnswered = s.runAnswered

theorem SameOutsidePacker.refl (s : State) : SameOutsidePacker s s := by constructor <;> rfl

theorem SameOutsidePacker.trans {s t u : State} (h : SameOutsidePacker s t) (g : SameOutsidePacker t u) :
    SameOutsidePacker s u where
  phase := g.phase.trans h.phase
  treeValid := g.treeValid.trans h.treeValid
  codesValid := g.codesValid.trans h.codesValid
  lastErr := g.lastErr.trans h.lastErr
  faultCause := g.faultCause.trans h.faultCause
  alpha := g.alpha.trans h.alpha
  node := g.node.trans h.node
  root := g.root.trans h.root
  code := g.code.trans h.code
  bufSize := g.bufSize.trans h.bufSize
  params := g.params.trans h.params
  host := g.host.trans h.host
  pos := g.pos.trans h.pos
  responses := g.responses.trans h.responses
  runStart := g.runStart.trans h.runStart
  runAnswered := g.runAnswered.trans h.runAnswered

/-- The writes that `t` has issued beyond those of `s`. -/
def newWrites (s t : State) : List SinkWrite := t.sink.drop s.sink.length

/-- What packing bits keeps, whichever way it ends: the frame, the log of writes only grows, and the counters count it
(R36). -/
structure PackStep (s t : State) : Prop where
  same : SameOutsidePacker s t
  /-- the writes issued are those of before and `new` -/
  grows : ∃ new, t.sink = s.sink ++ new ∧
    t.bytesOut = s.bytesOut + BitVec.ofNat 64 (okBytes new).length ∧
    t.writes = s.writes + BitVec.ofNat 64 (okCount new)

theorem PackStep.trans {s t u : State} (h : PackStep s t) (g : PackStep t u) : PackStep s u where
  same := h.same.trans g.same
  grows := by
    obtain ⟨x, hx, hb, hw⟩ := h.grows
    obtain ⟨y, hy, gb, gw⟩ := g.grows
    refine ⟨x ++ y, by rw [hy, hx, List.append_assoc], ?_, ?_⟩
    · rw [gb, hb, okBytes_append, List.length_append, BitVec.ofNat_add, BitVec.add_assoc]
    · rw [gw, hw, okCount_append, BitVec.ofNat_add, BitVec.add_assoc]

theorem PackStep.refl (s : State) : PackStep s s where
  same := .refl s
  grows := ⟨[], by simp [okBytes, okCount]⟩

/-- The output of a run grows by the bytes of the new OK writes. -/
theorem output_of_sink {s t : State} (hr : s.runStart ≤ s.sink.length) (hrun : t.runStart = s.runStart)
    {new : List SinkWrite} (h : t.sink = s.sink ++ new) :
    t.runWrites = s.runWrites ++ new ∧ t.output = s.output ++ okBytes new := by
  have : t.runWrites = s.runWrites ++ new := by
    simp only [State.runWrites, h, hrun, List.drop_append_of_le_length hr]
  exact ⟨this, by simp [State.output, this]⟩

/-- FlushBuf, case by case (R183). -/
theorem flushBuf_cases (s : State) :
    (s.ackScript.answer = none ∧ flushBuf s = .hang s) ∨
    (∃ rest, s.ackScript.answer = some (.fail, rest) ∧
      flushBuf s = .ioFail { s with ackScript := rest, sink := s.sink ++ [⟨s.obuf, some .fail⟩] }) ∨
    (∃ rest, s.ackScript.answer = some (.ok, rest) ∧
      flushBuf s = .ok { s with
        ackScript := rest, sink := s.sink ++ [⟨s.obuf, some .ok⟩]
        bytesOut := s.bytesOut + BitVec.ofNat 64 s.obuf.length, writes := s.writes + 1#64, obuf := [] }) := by
  unfold flushBuf
  split
  · exact .inl ⟨‹_›, rfl⟩
  · exact .inr (.inl ⟨_, ‹_›, rfl⟩)
  · exact .inr (.inr ⟨_, ‹_›, rfl⟩)

theorem flushBuf_packStep (s : State) : PackStep s (flushBuf s).state := by
  obtain ⟨-, h⟩ | ⟨rest, -, h⟩ | ⟨rest, -, h⟩ := flushBuf_cases s <;> rw [h]
  · exact .refl s
  · exact ⟨by constructor <;> rfl, [⟨s.obuf, some .fail⟩], rfl, by simp [PackResult.state],
      by simp [PackResult.state, okCount]⟩
  · exact ⟨by constructor <;> rfl, [⟨s.obuf, some .ok⟩], rfl, by simp [PackResult.state],
      by simp [PackResult.state, okCount]⟩

/-- A flush moves bytes from OBUF to the output; it never changes the bitstream (R76). -/
theorem flushBuf_stream (s : State) (hr : s.runStart ≤ s.sink.length) : (flushBuf s).state.stream = s.stream := by
  obtain ⟨-, h⟩ | ⟨rest, -, h⟩ | ⟨rest, -, h⟩ := flushBuf_cases s <;> rw [h]
  · rfl
  · have := (output_of_sink (s := s) (t := { s with ackScript := rest, sink := s.sink ++ [⟨s.obuf, some .fail⟩] })
      hr rfl rfl).2
    simp only [PackResult.state, State.stream, this]; simp
  · simp only [PackResult.state, State.stream]
    rw [(output_of_sink (s := s) (t := { s with
      ackScript := rest, sink := s.sink ++ [⟨s.obuf, some .ok⟩]
      bytesOut := s.bytesOut + BitVec.ofNat 64 s.obuf.length, writes := s.writes + 1#64, obuf := [] }) hr rfl rfl).2]
    simp

/-- What AppendBit has done to the packer before it may flush (R182). -/
def bitIn (s : State) (b : Bool) : State :=
  if s.accN = 7 then
    { s with acc := 0#8, accN := 0, bitsIn := s.bitsIn + 1#64, obuf := s.obuf ++ [shiftIn s.acc b] }
  else { s with acc := shiftIn s.acc b, accN := s.accN + 1, bitsIn := s.bitsIn + 1#64 }

/-- AppendBit puts the bit in, and flushes exactly when that filled the buffer (R182). -/
theorem appendBit_eq (s : State) (b : Bool) :
    appendBit s b =
      if s.accN = 7 ∧ (bitIn s b).obuf.length = s.bufSize.toNat then flushBuf (bitIn s b) else .ok (bitIn s b) := by
  unfold appendBit bitIn
  by_cases h : s.accN = 7 <;> simp [h]

theorem bitIn_same (s : State) (b : Bool) : SameOutsidePacker s (bitIn s b) := by
  unfold bitIn; split <;> constructor <;> rfl

@[simp] theorem bitIn_sink (s : State) (b : Bool) : (bitIn s b).sink = s.sink := by unfold bitIn; split <;> rfl
@[simp] theorem bitIn_ackScript (s : State) (b : Bool) : (bitIn s b).ackScript = s.ackScript := by
  unfold bitIn; split <;> rfl
@[simp] theorem bitIn_bytesOut (s : State) (b : Bool) : (bitIn s b).bytesOut = s.bytesOut := by
  unfold bitIn; split <;> rfl
@[simp] theorem bitIn_writes (s : State) (b : Bool) : (bitIn s b).writes = s.writes := by unfold bitIn; split <;> rfl
@[simp] theorem bitIn_bitsIn (s : State) (b : Bool) : (bitIn s b).bitsIn = s.bitsIn + 1#64 := by
  unfold bitIn; split <;> rfl

theorem bitIn_packStep (s : State) (b : Bool) : PackStep s (bitIn s b) :=
  ⟨bitIn_same s b, [], by simp [okBytes, okCount]⟩

theorem accN_succ_val {n : Fin 8} (h : n ≠ 7) : (n + 1).val = n.val + 1 := by
  revert h; revert n; decide

/-- A bit in is the next bit of the stream (R182, R67). -/
theorem bitIn_stream (s : State) (b : Bool) : (bitIn s b).stream = s.stream ++ [b] := by
  unfold bitIn
  split
  · next h =>
    have := accBits_shiftIn s.acc b 7 (by omega)
    simp [State.stream, State.output, State.runWrites, byteBits_eq_accBits, this, h]
  · next h =>
    simp [State.stream, State.output, State.runWrites, accN_succ_val h, accBits_shiftIn]

/-- ACC holds only the bits ACC_N counts (R34). -/
theorem bitIn_acc (s : State) (b : Bool) (h : s.acc.toNat < 2 ^ s.accN.val) :
    (bitIn s b).acc.toNat < 2 ^ (bitIn s b).accN.val := by
  unfold bitIn
  split
  · simp
  · next hn =>
    have hv : s.accN.val < 7 := by
      have := s.accN.isLt
      have : s.accN.val ≠ 7 := fun h7 => hn (Fin.ext h7)
      omega
    have h2 : (2 : Nat) ^ s.accN.val ≤ 2 ^ 6 := Nat.pow_le_pow_right (by omega) (by omega)
    have hs : (shiftIn s.acc b).toNat ≤ 2 * s.acc.toNat + 1 := by
      have hb : ((BitVec.ofBool b).setWidth 8).toNat ≤ 1 := by cases b <;> simp
      simp only [shiftIn, BitVec.toNat_or, BitVec.toNat_shiftLeft, Nat.shiftLeft_eq]
      rw [Nat.mod_eq_of_lt (by omega), Nat.mul_comm, pow_one]
      rcases b with _ | _
      · simp
      · have := Nat.two_pow_add_eq_or_of_lt (i := 1) (b := 1) (by omega) s.acc.toNat
        simp at this ⊢
        omega
    show _ < 2 ^ (s.accN + 1).val
    rw [accN_succ_val hn, Nat.pow_succ]
    show (shiftIn s.acc b).toNat < _
    omega

/-- The counters stay in step with the packer when a bit goes in (R36). -/
theorem bitIn_counts (s : State) (b : Bool) (h : s.countsExact) : (bitIn s b).countsExact := by
  unfold State.countsExact at *
  unfold bitIn
  split
  · next hn =>
    simp only [hn, List.length_append, List.length_singleton, BitVec.ofNat_add] at h ⊢
    rw [← h]
    simp [BitVec.mul_add, BitVec.add_assoc]
  · next hn =>
    simp only [accN_succ_val hn, BitVec.ofNat_add] at h ⊢
    rw [← h, BitVec.add_assoc]

theorem flushBuf_counts (s : State) (h : s.countsExact) : (flushBuf s).state.countsExact := by
  obtain ⟨-, e⟩ | ⟨rest, -, e⟩ | ⟨rest, -, e⟩ := flushBuf_cases s <;> rw [e]
  · exact h
  · exact h
  · unfold State.countsExact at *
    simpa [PackResult.state] using h

theorem appendBit_packStep (s : State) (b : Bool) : PackStep s (appendBit s b).state := by
  rw [appendBit_eq]
  split
  · exact (bitIn_packStep s b).trans (flushBuf_packStep _)
  · exact bitIn_packStep s b

theorem PackStep.run {s t : State} (h : PackStep s t) (hr : s.runStart ≤ s.sink.length) :
    t.runStart ≤ t.sink.length := by
  obtain ⟨new, hn, -, -⟩ := h.grows
  rw [h.same.runStart, hn, List.length_append]; omega

/-- AppendBit appends its bit to the bitstream, whichever way it ends (R182). -/
theorem appendBit_stream (s : State) (b : Bool) (hr : s.runStart ≤ s.sink.length) :
    (appendBit s b).state.stream = s.stream ++ [b] := by
  rw [appendBit_eq]
  split
  · rw [flushBuf_stream _ ((bitIn_packStep s b).run hr), bitIn_stream]
  · exact bitIn_stream s b

theorem appendBit_counts (s : State) (b : Bool) (h : s.countsExact) : (appendBit s b).state.countsExact := by
  rw [appendBit_eq]
  split
  · exact flushBuf_counts _ (bitIn_counts s b h)
  · exact bitIn_counts s b h

theorem appendBits_packStep (c : Code) (s : State) : PackStep s (appendBits s c).state := by
  induction c generalizing s with
  | nil => exact .refl s
  | cons b rest ih =>
    have h := appendBit_packStep s b
    unfold appendBits
    split
    · next t e => rw [e] at h; exact h.trans (ih t)
    · next t e => rw [e] at h; exact h
    · next t e => rw [e] at h; exact h

theorem appendBits_counts (c : Code) (s : State) (hc : s.countsExact) : (appendBits s c).state.countsExact := by
  induction c generalizing s with
  | nil => exact hc
  | cons b rest ih =>
    have h := appendBit_counts s b hc
    unfold appendBits
    split
    · next t e => rw [e] at h; exact ih t h
    · next t e => rw [e] at h; exact h
    · next t e => rw [e] at h; exact h

/-- How far `appendBits` got: all of the code if it goes on, else up to the bit that filled the buffer (R215). -/
theorem appendBits_stream (c : Code) (s : State) (hr : s.runStart ≤ s.sink.length) :
    ∃ j ≤ c.length, (appendBits s c).state.stream = s.stream ++ c.take j ∧
      (appendBits s c).state.bitsIn = s.bitsIn + BitVec.ofNat 64 j ∧
      (∀ t, appendBits s c = .ok t → j = c.length) := by
  induction c generalizing s with
  | nil => exact ⟨0, by simp, by simp [appendBits, PackResult.state], by simp [appendBits, PackResult.state], by simp⟩
  | cons b rest ih =>
    have hb : (appendBit s b).state.bitsIn = s.bitsIn + 1#64 := by
      rw [appendBit_eq]
      split
      · obtain ⟨-, e⟩ | ⟨r, -, e⟩ | ⟨r, -, e⟩ := flushBuf_cases (bitIn s b) <;> rw [e] <;> simp [PackResult.state]
      · simp [PackResult.state]
    have hs := appendBit_stream s b hr
    have hp := (appendBit_packStep s b).run hr
    unfold appendBits
    split
    · next t e =>
      rw [e] at hb hs hp
      obtain ⟨j, hj, h1, h2, h3⟩ := ih t hp
      refine ⟨j + 1, by simpa using hj, ?_, ?_, ?_⟩
      · rw [h1]; simp only [PackResult.state] at hs; rw [hs]; simp
      · rw [h2]; simp only [PackResult.state] at hb
        rw [hb, Nat.add_comm j 1, BitVec.ofNat_add, BitVec.add_assoc]
      · intro u hu; simp [h3 u hu]
    · next t e =>
      rw [e] at hb hs
      exact ⟨1, by simp, by simpa [PackResult.state] using hs, by simpa [PackResult.state] using hb, by simp⟩
    · next t e =>
      rw [e] at hb hs
      exact ⟨1, by simp, by simpa [PackResult.state] using hs, by simpa [PackResult.state] using hb, by simp⟩

end Sys2Proof.Machine
end

