-- ==== Sys2Proof/Laws/Exec.lean ====
section
/-! SUPPORT. What a command can do, said once (40_control.md R110, R111): `exec` is one cycle over a body, and a body
ends in one of the ways listed for it.  Later proofs cite these and unfold neither `exec` nor the bodies. -/

namespace Sys2Proof.Machine

/-- The body of each command. -/
def bodyOf (i : Instr) (s : State) : BodyResult :=
  match i with
  | .nop => .done s 0#64 0#64
  | .clear => .done s.clearBlock 0#64 0#64
  | .loadSym sym freq => bodyLoadSym sym freq s
  | .build => bodyBuild s
  | .derive => bodyDerive s
  | .setBufsize size => bodySetBufsize size s
  | .encode sym => bodyEncode sym s
  | .finish => bodyFinish s
  | .readReg reg => bodyReadReg reg s
  | .readAlpha k => bodyReadAlpha k s
  | .readNode n => bodyReadNode n s
  | .readCode k w => bodyReadCode k w s

/-- Every command is one cycle over its body (R110). -/
theorem exec_eq (i : Instr) (s : State) :
    exec i s = if legal i s then finishCommand s (bodyOf i s) else .next (s.takeReject .errPhase) := by
  cases i <;> rfl

theorem exec_of_legal {i : Instr} {s : State} (h : legal i s = true) : exec i s = finishCommand s (bodyOf i s) := by
  rw [exec_eq, if_pos h]

theorem exec_of_illegal {i : Instr} {s : State} (h : legal i s = false) :
    exec i s = .next (s.takeReject .errPhase) := by
  rw [exec_eq, if_neg (by simp [h])]

/-- If a command answers a next state, either its phase was wrong, or its body raised nothing, Reject or Fatal. -/
theorem exec_cases {i : Instr} {s t : State} (h : exec i s = .next t) :
    (legal i s = false ∧ t = s.takeReject .errPhase) ∨
    (legal i s = true ∧ ((∃ u d0 d1, bodyOf i s = .done u d0 d1 ∧ t = u.complete d0 d1) ∨
      (∃ e, bodyOf i s = .reject e ∧ t = s.takeReject e) ∨
      (∃ e u, bodyOf i s = .fatal e u ∧ t = u.takeFatal e))) := by
  by_cases hl : legal i s = true
  · refine .inr ⟨hl, ?_⟩
    rw [exec_of_legal hl] at h
    cases hb : bodyOf i s with
    | done u d0 d1 => rw [hb] at h; exact .inl ⟨u, d0, d1, rfl, by simpa [finishCommand] using h.symm⟩
    | reject e => rw [hb] at h; exact .inr (.inl ⟨e, rfl, by simpa [finishCommand] using h.symm⟩)
    | fatal e u => rw [hb] at h; exact .inr (.inr ⟨e, u, rfl, by simpa [finishCommand] using h.symm⟩)
    | hang u => rw [hb] at h; simp [finishCommand] at h
  · have hl : legal i s = false := by simpa using hl
    rw [exec_of_illegal hl] at h
    exact .inl ⟨hl, by simpa using h.symm⟩

/-- R111's table, as propositions. -/
theorem legal_iff (i : Instr) (s : State) : legal i s = true ↔ (match i with
    | .nop => True
    | .clear => True
    | .loadSym _ _ => s.phase = .load
    | .build => s.phase = .load
    | .derive => s.phase = .built
    | .setBufsize _ => s.phase = .load ∨ s.phase = .built ∨ s.phase = .coded
    | .encode _ => s.phase = .coded ∨ s.phase = .encoding
    | .finish => s.phase = .coded ∨ s.phase = .encoding
    | .readReg _ => True
    | .readAlpha _ => True
    | .readNode _ => s.treeValid = true
    | .readCode _ _ => s.codesValid = true) := by
  cases i <;> simp [legal]

/-! ### What each body can end in -/

/-- The reads and NOP leave the state alone, and raise at most ERR_RANGE (R72). -/
theorem body_of_read {i : Instr} (s : State) (hi : isRead i = true ∨ i = .nop) :
    (∃ d0 d1, bodyOf i s = .done s d0 d1) ∨ bodyOf i s = .reject .errRange := by
  cases i <;> simp [isRead] at hi <;> simp only [bodyOf]
  · exact .inl ⟨_, _, rfl⟩
  all_goals
    simp only [bodyReadReg, bodyReadAlpha, bodyReadNode, bodyReadCode]
    repeat' split
    all_goals first
      | exact .inl ⟨_, _, rfl⟩
      | exact .inr rfl

/-- What LOAD_SYM can end in (R130). -/
theorem bodyLoadSym_cases (sym : Sym) (freq : Freq) (s : State) :
    (s.n = s.params.nMax ∧ bodyLoadSym sym freq s = .reject .errFull) ∨
    (s.n ≠ s.params.nMax ∧ (∃ e ∈ s.alpha, e.sym = sym) ∧ bodyLoadSym sym freq s = .reject .errDup) ∨
    (s.n ≠ s.params.nMax ∧ (∀ e ∈ s.alpha, e.sym ≠ sym) ∧
      bodyLoadSym sym freq s = .done { s with alpha := s.alpha ++ [⟨sym, freq⟩] } 0#64 0#64) := by
  have key : (findSym s.alpha sym).isSome = true ↔ ∃ e ∈ s.alpha, e.sym = sym := by
    simp [findSym, List.findIdx?_isSome]
  unfold bodyLoadSym
  by_cases h : s.n = s.params.nMax
  · exact .inl ⟨h, by rw [if_pos h]⟩
  · by_cases hd : (findSym s.alpha sym).isSome = true
    · exact .inr (.inl ⟨h, key.1 hd, by rw [if_neg h, if_pos hd]⟩)
    · refine .inr (.inr ⟨h, ?_, by rw [if_neg h, if_neg hd]⟩)
      intro e he hs
      exact hd (key.2 ⟨e, he, hs⟩)

/-- What BUILD can end in, while the alphabet fits the 16-bit node indices (R134, R135). -/
theorem bodyBuild_cases (s : State) (hN : s.n ≤ 32768) :
    (s.n = 0 ∧ bodyBuild s = .fatal .errEmpty s) ∨
    (1 ≤ s.n ∧ ∃ nodes, buildNodes s.alpha = .ok nodes ∧ MergeInv s.alpha 0 (s.n - 1) nodes [2 * s.n - 2] ∧
      bodyBuild s = .done
        { s with node := nodes, root := BitVec.ofNat 16 (2 * s.n - 2), treeValid := true, phase := .built } 0#64 0#64) := by
  unfold bodyBuild
  by_cases h : s.n = 0
  · exact .inl ⟨h, by rw [if_pos h]⟩
  · have h1 : 1 ≤ s.alpha.length := Nat.one_le_iff_ne_zero.2 h
    obtain ⟨nodes, e, w⟩ := buildNodes_spec h1 hN
    exact .inr ⟨h1, nodes, e, w, by rw [if_neg h, e]⟩

/-- What DERIVE can end in on a tree (R160, R161). -/
theorem bodyDerive_cases (s : State) (h1 : 1 ≤ s.n) (ht : TreeWf s.alpha s.node) (hr : s.root.toNat = 2 * s.n - 2) :
    (s.n = 1 ∧ bodyDerive s = .done { s with code := [[false]], codesValid := true, phase := .coded } 0#64 0#64) ∨
    (2 ≤ s.n ∧ ∃ table, deriveCodes s.node s.n s.root.toNat = .ok table ∧ CodesOf s.alpha s.node table ∧
      bodyDerive s = .done { s with code := table, codesValid := true, phase := .coded } 0#64 0#64) := by
  unfold bodyDerive
  by_cases h : s.n = 1
  · exact .inl ⟨h, by rw [if_pos h]⟩
  · have h2 : 2 ≤ s.alpha.length := by unfold State.n at *; omega
    obtain ⟨table, e, w⟩ := deriveCodes_spec ht h2
    have e' : deriveCodes s.node s.n s.root.toNat = .ok table := by rw [hr]; exact e
    exact .inr ⟨h2, table, e', w, by rw [if_neg h, e']⟩

/-- What SET_BUFSIZE can end in (R180). -/
theorem bodySetBufsize_cases (size : Val) (s : State) :
    ((size = 0#32 ∨ s.params.bufMax < size) ∧ bodySetBufsize size s = .reject .errBufsize) ∨
    (1#32 ≤ size ∧ size ≤ s.params.bufMax ∧ bodySetBufsize size s = .done { s with bufSize := size } 0#64 0#64) := by
  unfold bodySetBufsize
  by_cases h : size = 0#32 ∨ s.params.bufMax < size
  · exact .inl ⟨h, by rw [if_pos h]⟩
  · refine .inr ⟨?_, ?_, by rw [if_neg h]⟩
    · rw [not_or] at h
      rw [BitVec.le_def]
      have : size.toNat ≠ 0 := fun hz => h.1 (BitVec.eq_of_toNat_eq hz)
      simp; omega
    · rw [not_or] at h
      exact BitVec.not_lt.1 h.2

/-! ### The three ends of a body, command by command -/

/-- A body that raises nothing: which command, and the state it has built. -/
inductive BodyDone (s : State) : Instr → State → Word → Word → Prop where
  | read {i d0 d1} (h : isRead i = true) : BodyDone s i s d0 d1
  | nop : BodyDone s .nop s 0#64 0#64
  | clear : BodyDone s .clear s.clearBlock 0#64 0#64
  | loadSym {sym freq} (room : s.n ≠ s.params.nMax) (fresh : ∀ e ∈ s.alpha, e.sym ≠ sym) :
    BodyDone s (.loadSym sym freq) { s with alpha := s.alpha ++ [⟨sym, freq⟩] } 0#64 0#64
  | build {nodes} (h1 : 1 ≤ s.n) (h : buildNodes s.alpha = .ok nodes) :
    BodyDone s .build
      { s with node := nodes, root := BitVec.ofNat 16 (2 * s.n - 2), treeValid := true, phase := .built } 0#64 0#64
  | derive {table} (h : s.n = 1 ∧ table = [[false]] ∨ s.n ≠ 1 ∧ deriveCodes s.node s.n s.root.toNat = .ok table) :
    BodyDone s .derive { s with code := table, codesValid := true, phase := .coded } 0#64 0#64
  | setBufsize {size} (h1 : 1#32 ≤ size) (h2 : size ≤ s.params.bufMax) :
    BodyDone s (.setBufsize size) { s with bufSize := size } 0#64 0#64
  | encode {sym c t} (hc : codeOf s sym = some c) (h : appendBits { s with phase := .encoding } c = .ok t) :
    BodyDone s (.encode sym) t 0#64 0#64
  | finish {t} (h : flushRest (padLastByte s) = .ok t) : BodyDone s .finish { t with phase := .done } 0#64 0#64

theorem body_done {i : Instr} {s u : State} {d0 d1 : Word} (h : bodyOf i s = .done u d0 d1) :
    BodyDone s i u d0 d1 := by
  cases i <;> simp only [bodyOf] at h
  case nop => cases h; exact .nop
  case clear => cases h; exact .clear
  case loadSym sym freq =>
    obtain ⟨-, e⟩ | ⟨-, -, e⟩ | ⟨h1, h2, e⟩ := bodyLoadSym_cases sym freq s <;> rw [e] at h <;> cases h
    exact .loadSym h1 h2
  case build =>
    unfold bodyBuild at h
    split at h
    · cases h
    · split at h <;> cases h
      exact .build (by omega) ‹_›
  case derive =>
    unfold bodyDerive at h
    split at h
    · cases h; exact .derive (.inl ⟨‹_›, rfl⟩)
    · split at h <;> cases h
      exact .derive (.inr ⟨‹_›, ‹_›⟩)
  case setBufsize size =>
    obtain ⟨-, e⟩ | ⟨h1, h2, e⟩ := bodySetBufsize_cases size s <;> rw [e] at h <;> cases h
    exact .setBufsize h1 h2
  case encode sym =>
    unfold bodyEncode at h
    split at h
    · cases h
    · unfold packed at h
      split at h <;> cases h
      exact .encode ‹_› ‹_›
  case finish =>
    unfold bodyFinish packed at h
    split at h <;> cases h
    exact .finish ‹_›
  all_goals
    simp only [bodyReadReg, bodyReadAlpha, bodyReadNode, bodyReadCode] at h
    repeat' split at h
    all_goals first
      | cases h; done
      | cases h; exact .read rfl

/-- A body that raises Reject: which command, and which error. -/
inductive BodyReject (s : State) : Instr → ErrCode → Prop where
  | read {i} (h : isRead i = true) : BodyReject s i .errRange
  | full {sym freq} (h : s.n = s.params.nMax) : BodyReject s (.loadSym sym freq) .errFull
  | dup {sym freq} (h : ∃ e ∈ s.alpha, e.sym = sym) : BodyReject s (.loadSym sym freq) .errDup
  | bufsize {size} (h : size = 0#32 ∨ s.params.bufMax < size) : BodyReject s (.setBufsize size) .errBufsize

theorem body_reject {i : Instr} {s : State} {e : ErrCode} (h : bodyOf i s = .reject e) : BodyReject s i e := by
  cases i <;> simp only [bodyOf] at h
  case nop => cases h
  case clear => cases h
  case loadSym sym freq =>
    obtain ⟨h1, e⟩ | ⟨-, h2, e⟩ | ⟨-, -, e⟩ := bodyLoadSym_cases sym freq s <;> rw [e] at h <;> cases h
    · exact .full h1
    · exact .dup h2
  case build => unfold bodyBuild at h; (repeat' split at h) <;> cases h
  case derive => unfold bodyDerive at h; (repeat' split at h) <;> cases h
  case setBufsize size =>
    obtain ⟨h1, e⟩ | ⟨-, -, e⟩ := bodySetBufsize_cases size s <;> rw [e] at h <;> cases h
    exact .bufsize h1
  case encode sym => unfold bodyEncode packed at h; (repeat' split at h) <;> cases h
  case finish => unfold bodyFinish packed at h; split at h <;> cases h
  all_goals
    simp only [bodyReadReg, bodyReadAlpha, bodyReadNode, bodyReadCode] at h
    repeat' split at h
    all_goals first
      | cases h; done
      | cases h; exact .read rfl

/-- A body that raises Fatal: which command, which error, and the state it has built (R215). -/
inductive BodyFatal (s : State) : Instr → ErrCode → State → Prop where
  | empty (h : s.n = 0) : BodyFatal s .build .errEmpty s
  | tree {nodes} (h1 : 1 ≤ s.n) (h : buildNodes s.alpha = .error nodes) :
    BodyFatal s .build .errInvariant { s with node := nodes }
  | codes {table} (h1 : s.n ≠ 1) (h : deriveCodes s.node s.n s.root.toNat = .error table) :
    BodyFatal s .derive .errInvariant { s with code := table }
  | nocode {sym} (h : codeOf s sym = none) : BodyFatal s (.encode sym) .errNocode s
  | encodeIo {sym c t} (hc : codeOf s sym = some c) (h : appendBits { s with phase := .encoding } c = .ioFail t) :
    BodyFatal s (.encode sym) .errIo t
  | finishIo {t} (h : flushRest (padLastByte s) = .ioFail t) : BodyFatal s .finish .errIo t

theorem body_fatal {i : Instr} {s u : State} {e : ErrCode} (h : bodyOf i s = .fatal e u) : BodyFatal s i e u := by
  cases i <;> simp only [bodyOf] at h
  case nop => cases h
  case clear => cases h
  case loadSym sym freq =>
    obtain ⟨-, e⟩ | ⟨-, -, e⟩ | ⟨-, -, e⟩ := bodyLoadSym_cases sym freq s <;> rw [e] at h <;> cases h
  case build =>
    unfold bodyBuild at h
    split at h
    · cases h; exact .empty ‹_›
    · split at h <;> cases h
      exact .tree (by omega) ‹_›
  case derive =>
    unfold bodyDerive at h
    split at h
    · cases h
    · split at h <;> cases h
      exact .codes ‹_› ‹_›
  case setBufsize size =>
    obtain ⟨-, e⟩ | ⟨-, -, e⟩ := bodySetBufsize_cases size s <;> rw [e] at h <;> cases h
  case encode sym =>
    unfold bodyEncode at h
    split at h
    · cases h; exact .nocode ‹_›
    · unfold packed at h
      split at h <;> cases h
      exact .encodeIo ‹_› ‹_›
  case finish =>
    unfold bodyFinish packed at h
    split at h <;> cases h
    exact .finishIo ‹_›
  all_goals
    simp only [bodyReadReg, bodyReadAlpha, bodyReadNode, bodyReadCode] at h
    repeat' split at h
    all_goals cases h

/-- A body that waits for ever: only ENCODE and FINISH write to the sink (R247). -/
theorem body_hang {i : Instr} {s u : State} (h : bodyOf i s = .hang u) :
    (∃ sym c, i = .encode sym ∧ codeOf s sym = some c ∧ appendBits { s with phase := .encoding } c = .hang u) ∨
    (i = .finish ∧ flushRest (padLastByte s) = .hang u) := by
  cases i <;> simp only [bodyOf] at h
  case nop => cases h
  case clear => cases h
  case loadSym sym freq =>
    obtain ⟨-, e⟩ | ⟨-, -, e⟩ | ⟨-, -, e⟩ := bodyLoadSym_cases sym freq s <;> rw [e] at h <;> cases h
  case build => unfold bodyBuild at h; (repeat' split at h) <;> cases h
  case derive => unfold bodyDerive at h; (repeat' split at h) <;> cases h
  case setBufsize size =>
    obtain ⟨-, e⟩ | ⟨-, -, e⟩ := bodySetBufsize_cases size s <;> rw [e] at h <;> cases h
  case encode sym =>
    unfold bodyEncode at h
    split at h
    · cases h
    · unfold packed at h
      split at h <;> cases h
      exact .inl ⟨_, _, rfl, ‹_›, ‹_›⟩
  case finish =>
    unfold bodyFinish packed at h
    split at h <;> cases h
    exact .inr ⟨rfl, ‹_›⟩
  all_goals
    simp only [bodyReadReg, bodyReadAlpha, bodyReadNode, bodyReadCode] at h
    repeat' split at h
    all_goals cases h

/-- Packing keeps the room in OBUF, and fails or hangs only with the buffer full (R182, R215). -/
theorem appendBits_room (c : Code) (s : State) (h : s.obuf.length < s.bufSize.toNat) :
    match appendBits s c with
    | .ok t => t.obuf.length < t.bufSize.toNat
    | .ioFail t => t.obuf.length = t.bufSize.toNat ∧ t.acc = 0#8 ∧ t.accN = 0 ∧
        t.sink.getLast? = some ⟨t.obuf, some .fail⟩
    | .hang t => t.obuf.length = t.bufSize.toNat ∧ t.acc = 0#8 ∧ t.accN = 0 ∧ t.ackScript.answer = none := by
  induction c generalizing s with
  | nil => exact h
  | cons b rest ih =>
    have hb := bitIn_same s b
    unfold appendBits
    rw [appendBit_eq]
    by_cases hf : s.accN = 7 ∧ (bitIn s b).obuf.length = s.bufSize.toNat
    · rw [if_pos hf]
      have h0 : (bitIn s b).acc = 0#8 ∧ (bitIn s b).accN = 0 := by simp [bitIn, hf.1]
      obtain ⟨ha, e⟩ | ⟨r, -, e⟩ | ⟨r, -, e⟩ := flushBuf_cases (bitIn s b) <;> rw [e]
      · exact ⟨by rw [hb.bufSize, hf.2], h0.1, h0.2, ha⟩
      · exact ⟨by simpa [hb.bufSize] using hf.2, h0.1, h0.2, by simp⟩
      · apply ih
        simp only [List.length_nil, hb.bufSize]
        omega
    · rw [if_neg hf]
      apply ih
      rw [hb.bufSize]
      by_cases h7 : s.accN = 7
      · have : (bitIn s b).obuf.length = s.obuf.length + 1 := by simp [bitIn, h7]
        have hne : (bitIn s b).obuf.length ≠ s.bufSize.toNat := fun hc => hf ⟨h7, hc⟩
        omega
      · simpa [bitIn, h7] using h

/-- Packing keeps ACC within ACC_N bits (R34). -/
theorem appendBits_acc (c : Code) (s : State) (h : s.acc.toNat < 2 ^ s.accN.val) :
    (appendBits s c).state.acc.toNat < 2 ^ (appendBits s c).state.accN.val := by
  have one : ∀ b, ∀ s : State, s.acc.toNat < 2 ^ s.accN.val →
      (appendBit s b).state.acc.toNat < 2 ^ (appendBit s b).state.accN.val := by
    intro b s h
    rw [appendBit_eq]
    have := bitIn_acc s b h
    split
    · obtain ⟨-, e⟩ | ⟨r, -, e⟩ | ⟨r, -, e⟩ := flushBuf_cases (bitIn s b) <;> rw [e] <;> exact this
    · exact this
  induction c generalizing s with
  | nil => exact h
  | cons b rest ih =>
    have h := one b s h
    unfold appendBits
    split
    · next t e => rw [e] at h; exact ih t h
    · next t e => rw [e] at h; exact h
    · next t e => rw [e] at h; exact h

/-- `findSym` finds the one entry that holds a symbol (R26, R181). -/
theorem findSym_eq_some {alpha : List AlphaEntry} {k : Nat} {e : AlphaEntry}
    (hd : (alpha.map AlphaEntry.sym).Nodup) (hk : alpha[k]? = some e) : findSym alpha e.sym = some k := by
  obtain ⟨hlt, rfl⟩ := List.getElem?_eq_some_iff.1 hk
  unfold findSym
  rw [List.findIdx?_eq_some_iff_getElem]
  refine ⟨hlt, by simp, ?_⟩
  intro j hj
  have := List.nodup_iff_injective_get.1 hd
  simp only [Bool.not_eq_true, beq_eq_false_iff_ne, ne_eq]
  intro heq
  have := @this ⟨j, by simp; omega⟩ ⟨k, by simpa using hlt⟩ (by simpa using heq)
  simp at this; omega

theorem findSym_eq_none {alpha : List AlphaEntry} {sym : Sym} :
    findSym alpha sym = none ↔ ∀ e ∈ alpha, e.sym ≠ sym := by
  simp [findSym]

/-- The code of a loaded symbol. -/
theorem codeOf_eq {s : State} {k : Nat} {e : AlphaEntry} {c : Code} (hd : (s.alpha.map AlphaEntry.sym).Nodup)
    (hk : s.alpha[k]? = some e) (hc : s.code[k]? = some c) : codeOf s e.sym = some c := by
  simp [codeOf, findSym_eq_some hd hk, hc]

/-- With a full code table, exactly the symbols that are not loaded have no code (R189). -/
theorem codeOf_eq_none {s : State} {sym : Sym} (h : s.code.length = s.n) :
    codeOf s sym = none ↔ ∀ e ∈ s.alpha, e.sym ≠ sym := by
  rw [← findSym_eq_none]
  unfold codeOf
  split
  · simp [*]
  · next k hk =>
    have : k < s.alpha.length := by
      unfold findSym at hk
      exact (List.findIdx?_eq_some_iff_getElem.1 hk).1
    have h : s.code.length = s.alpha.length := h
    rw [List.getElem?_eq_getElem (by omega)]
    simp [hk]

/-- What FINISH's pad does: the stream gets zero bits up to a whole byte (R184). -/
theorem padLastByte_stream (s : State) :
    ∃ pad < 8, (padLastByte s).stream = s.stream ++ List.replicate pad false ∧ (padLastByte s).accN = 0 := by
  unfold padLastByte
  split
  · next h => exact ⟨0, by omega, by simp, h⟩
  · next h =>
    have hp := byteBits_pad s.acc s.accN.val s.accN.isLt.le
    have h0 : s.accN.val ≠ 0 := fun h0 => h (Fin.ext h0)
    refine ⟨8 - s.accN.val, by omega, ?_, rfl⟩
    simp [State.stream, State.output, State.runWrites, hp]

theorem padLastByte_same (s : State) : SameOutsidePacker s (padLastByte s) := by
  unfold padLastByte; split <;> constructor <;> rfl

@[simp] theorem padLastByte_sink (s : State) : (padLastByte s).sink = s.sink := by unfold padLastByte; split <;> rfl
@[simp] theorem padLastByte_ackScript (s : State) : (padLastByte s).ackScript = s.ackScript := by
  unfold padLastByte; split <;> rfl
@[simp] theorem padLastByte_bitsIn (s : State) : (padLastByte s).bitsIn = s.bitsIn := by
  unfold padLastByte; split <;> rfl
@[simp] theorem padLastByte_bytesOut (s : State) : (padLastByte s).bytesOut = s.bytesOut := by
  unfold padLastByte; split <;> rfl
@[simp] theorem padLastByte_writes (s : State) : (padLastByte s).writes = s.writes := by
  unfold padLastByte; split <;> rfl
@[simp] theorem padLastByte_accN (s : State) : (padLastByte s).accN = 0 := by
  unfold padLastByte; split <;> first | assumption | rfl

/-- The pad adds at most one byte, which can fill the buffer (R184). -/
theorem padLastByte_room (s : State) (h : s.obuf.length < s.bufSize.toNat) :
    (padLastByte s).obuf.length ≤ (padLastByte s).bufSize.toNat := by
  unfold padLastByte
  split
  · omega
  · simp; omega

/-- ACC is 0 once no bit is counted (R34). -/
theorem padLastByte_acc (s : State) (h : s.acc.toNat < 2 ^ s.accN.val) : (padLastByte s).acc = 0#8 := by
  unfold padLastByte
  split
  · next h0 =>
    rw [h0] at h
    exact BitVec.eq_of_toNat_eq (by simpa using h)
  · rfl

/-- The counters once the last byte is padded (R36). -/
theorem padLastByte_counts (s : State) (h : s.countsExact) : (padLastByte s).countsPadded := by
  refine ⟨padLastByte_accN s, ?_⟩
  unfold State.countsExact at h
  unfold padLastByte
  split
  · next h0 =>
    refine ⟨0, by omega, ?_⟩
    rw [h0] at h
    simpa using h
  · next h0 =>
    have h0 : s.accN.val ≠ 0 := fun hz => h0 (Fin.ext hz)
    refine ⟨8 - s.accN.val, by omega, ?_⟩
    simp only [List.length_append, List.length_singleton, BitVec.ofNat_add]
    rw [← h, ← BitVec.add_assoc, BitVec.mul_add, BitVec.add_assoc, ← BitVec.ofNat_add,
      show s.accN.val + (8 - s.accN.val) = 8 by omega]
    rfl

end Sys2Proof.Machine
end

