-- ==== Sys2Proof/Laws/Layouts.lean ====
section
/-! SUPPORT. The packed layouts as numbers and as fields: STATUS (10_state.md R22), PACK_ACC (R37), the data words of
READ_NODE (41_tree_builder.md R139) and READ_CODE (42_code_table_gen.md R164). -/

namespace Sys2Proof.Machine

/-- A concatenation as a number: the left part stands above the right part. -/
theorem toNat_append_eq {m n : Nat} (x : BitVec m) (y : BitVec n) : (x ++ y).toNat = x.toNat * 2 ^ n + y.toNat := by
  rw [BitVec.toNat_append, ← Nat.shiftLeft_add_eq_or_of_lt y.isLt, Nat.shiftLeft_eq]

/-- The low part of a concatenation. -/
theorem extract_append_low {m n : Nat} (x : BitVec m) (y : BitVec n) : (x ++ y).extractLsb' 0 n = y := by
  apply BitVec.eq_of_getLsbD_eq
  intro i hi
  simp only [BitVec.getLsbD_extractLsb', BitVec.getLsbD_append]
  simp [hi]

/-- A field above the low part of a concatenation is a field of the high part. -/
theorem extract_append_high {m n : Nat} (x : BitVec m) (y : BitVec n) (k w : Nat) :
    (x ++ y).extractLsb' (n + k) w = x.extractLsb' k w := by
  apply BitVec.eq_of_getLsbD_eq
  intro i hi
  simp only [BitVec.getLsbD_extractLsb', BitVec.getLsbD_append, show ¬ n + k + i < n by omega, if_false,
    show n + k + i - n = k + i by omega]

/-- A bit above the low part of a concatenation is a bit of the high part. -/
theorem getLsbD_append_high {m n : Nat} (x : BitVec m) (y : BitVec n) (k : Nat) :
    (x ++ y).getLsbD (n + k) = x.getLsbD k := by
  rw [BitVec.getLsbD_append, if_neg (by omega), show n + k - n = k by omega]

/-- PACK_ACC as a number (R37). -/
theorem packAcc_toNat (s : State) : (packAcc s).toNat = 256 * s.acc.toNat + s.accN.val := by
  have := s.accN.isLt
  simp only [packAcc, toNat_append_eq, BitVec.toNat_ofNat]
  omega

/-- The layout word of an internal node as a number (R139). -/
theorem layout_internal_toNat (f : NodeFreq) (seq left right : NodeIdx) :
    (Node.internal f seq left right).layout.toNat =
      2 ^ 63 + 2 ^ 32 * seq.toNat + 2 ^ 16 * left.toNat + right.toNat := by
  simp only [Node.layout, toNat_append_eq, BitVec.toNat_ofNat]
  omega

/-- The information word of a code as a number (R164). -/
theorem codeInfo_toNat (sym : Sym) (c : Code) : (codeInfo sym c).toNat = 2 ^ 32 * sym.toNat + c.length % 2 ^ 16 := by
  simp only [codeInfo, toNat_append_eq, BitVec.toNat_ofNat]
  omega

/-- Bit `63 - j` of word `w` of a code is bit `64 w + j` of the code, and 0 past its end (R164). -/
theorem codeWord_bit (c : Code) (w j : Nat) (hj : j < 64) :
    (codeWord c w).getLsbD (63 - j) = c.getD (64 * w + j) false := by
  have : 63 - (63 - j) = j := by omega
  rw [codeWord, BitVec.getLsbD_ofFnLE, dif_pos (by omega)]
  simp only [this]

/-- The phase field of STATUS (R22). -/
theorem status_phase (s : State) : s.status.extractLsb' 0 3 = s.phase.code := extract_append_low _ _

/-- The TREE_VALID bit of STATUS (R22). -/
theorem status_treeValid (s : State) : s.status.getLsbD 3 = s.treeValid := by
  refine (getLsbD_append_high _ _ 0).trans ?_
  simp only [BitVec.getLsbD_append]
  simp

/-- The CODES_VALID bit of STATUS (R22). -/
theorem status_codesValid (s : State) : s.status.getLsbD 4 = s.codesValid := by
  refine (getLsbD_append_high _ _ 1).trans ((getLsbD_append_high _ _ 0).trans ?_)
  simp only [BitVec.getLsbD_append]
  simp

/-- The reserved field of STATUS (R22). -/
theorem status_reserved (s : State) : s.status.extractLsb' 5 3 = 0#3 :=
  (extract_append_high _ _ 2 3).trans <| (extract_append_high _ _ 1 3).trans <|
    (extract_append_high _ _ 0 3).trans (extract_append_low _ _)

/-- The LAST_ERR field of STATUS (R22). -/
theorem status_lastErr (s : State) : s.status.extractLsb' 8 4 = s.lastErr.code :=
  (extract_append_high _ _ 5 4).trans <| (extract_append_high _ _ 4 4).trans <|
    (extract_append_high _ _ 3 4).trans <| (extract_append_high _ _ 0 4).trans (extract_append_low _ _)

/-- The FAULT_CAUSE field of STATUS (R22). -/
theorem status_faultCause (s : State) : s.status.extractLsb' 12 4 = s.faultCause.code :=
  (extract_append_high _ _ 9 4).trans <| (extract_append_high _ _ 8 4).trans <|
    (extract_append_high _ _ 7 4).trans <| (extract_append_high _ _ 4 4).trans <|
    (extract_append_high _ _ 0 4).trans BitVec.extractLsb'_eq_self

end Sys2Proof.Machine
end

