-- ==== Sys2Proof/Laws/LoadOrder.lean ====
section
/-! SUPPORT. The order of the loads does not shape the tree (41_tree_builder.md R133, R138): with distinct symbols the
least node of every queue is unique, and a merge loop over relabelled indices makes the relabelled nodes. -/

namespace Sys2Proof.Machine

/-- While the symbols are distinct, two different nodes of the merge are never tied (R133). -/
theorem MergeInv.total {alpha : List AlphaEntry} {m seq : Nat} {nodes : List Node} {q : List Nat}
    (w : MergeInv alpha m seq nodes q) (hd : (alpha.map AlphaEntry.sym).Nodup) (hN : alpha.length ≤ 32768) {i j : Nat}
    (hi : i < nodes.length) (hj : j < nodes.length) (hne : i ≠ j) (h : beforeAt nodes j i = false) :
    beforeAt nodes i j = true := by
  have hs := w.size
  have hgo := w.toGo
  have kind : ∀ i : Nat, i < nodes.length →
      (∃ e, alpha[i]? = some e ∧ nodes[i]? = some (.leaf (e.freq.setWidth 48) e.sym)) ∨
      (alpha.length ≤ i ∧ ∃ f l r, nodes[i]? = some (.internal f (BitVec.ofNat 16 (i - alpha.length)) l r)) := by
    intro i hi
    by_cases hia : i < alpha.length
    · obtain ⟨more, hmore⟩ := w.leaf
      refine .inl ⟨alpha[i], by simp [hia], ?_⟩
      rw [hmore, List.getElem?_append_left (by simpa [leaves] using hia)]
      simp [leaves, hia]
    · obtain ⟨f, l, r, e, -⟩ := w.merges (i - alpha.length) (by omega)
      rw [show alpha.length + (i - alpha.length) = i by omega] at e
      exact .inr ⟨by omega, f, l, r, e⟩
  have key : ∀ x y, nodes[i]? = some x → nodes[j]? = some y → (before x y = true ∨ before y x = true) →
      beforeAt nodes i j = true := by
    intro x y hx hy hb
    simp only [beforeAt, hx, hy] at h ⊢
    rcases hb with hb | hb
    · exact hb
    · rw [hb] at h; cases h
  rcases kind i hi with ⟨e, he, hx⟩ | ⟨hi', f, l, r, hx⟩ <;> rcases kind j hj with ⟨e', he', hy⟩ | ⟨hj', f', l', r', hy⟩
  · refine key _ _ hx hy (before_total ?_)
    intro hse
    obtain ⟨hil, rfl⟩ := List.getElem?_eq_some_iff.1 he
    obtain ⟨hjl, rfl⟩ := List.getElem?_eq_some_iff.1 he'
    have := (List.nodup_iff_injective_get.1 hd) (a₁ := ⟨i, by simpa using hil⟩) (a₂ := ⟨j, by simpa using hjl⟩)
      (by simpa using hse)
    exact hne (by simpa using this)
  · exact key _ _ hx hy (before_total trivial)
  · exact key _ _ hx hy (before_total trivial)
  · refine key _ _ hx hy (before_total ?_)
    intro hse
    have := congrArg BitVec.toNat hse
    simp at this
    omega

/-- The index that sorts before all others of the queue is the one extracted. -/
theorem extractMin_of_least {nodes : List Node} {q : List Nat} {a : Nat} (ha : a ∈ q)
    (h : ∀ c ∈ q, c ≠ a → beforeAt nodes a c = true) : extractMin nodes q = some (a, q.erase a) := by
  obtain ⟨b, e, hb, lb⟩ := extractMin_spec nodes (List.ne_nil_of_mem ha)
  by_cases hab : b = a
  · rw [e, hab]
  · have := h b hb hab
    rw [lb a ha] at this; cases this

/-- A node with its children's indices relabelled. -/
def Node.relabel (σ : Nat → Nat) : Node → Node
  | .leaf f sym => .leaf f sym
  | .internal f q l r => .internal f q (BitVec.ofNat 16 (σ l.toNat)) (BitVec.ofNat 16 (σ r.toNat))

/-- The second list of nodes is the first with its indices relabelled. -/
structure Relabels (σ : Nat → Nat) (nodes nodes' : List Node) : Prop where
  len : nodes'.length = nodes.length
  at_ : ∀ (i : Nat) (x : Node), nodes[i]? = some x → nodes'[σ i]? = some (x.relabel σ)

theorem before_relabel (σ : Nat → Nat) (x y : Node) : before (x.relabel σ) (y.relabel σ) = before x y := by
  cases x <;> cases y <;> rfl

theorem Relabels.beforeAt {σ : Nat → Nat} {nodes nodes' : List Node} (h : Relabels σ nodes nodes') {i j : Nat}
    (hi : i < nodes.length) (hj : j < nodes.length) :
    Machine.beforeAt nodes' (σ i) (σ j) = Machine.beforeAt nodes i j := by
  simp only [Machine.beforeAt, h.at_ i _ (List.getElem?_eq_getElem hi), h.at_ j _ (List.getElem?_eq_getElem hj),
    List.getElem?_eq_getElem hi, List.getElem?_eq_getElem hj, before_relabel]

theorem Relabels.freqAt {σ : Nat → Nat} {nodes nodes' : List Node} (h : Relabels σ nodes nodes') {i : Nat}
    (hi : i < nodes.length) : Machine.freqAt nodes' (σ i) = Machine.freqAt nodes i := by
  simp only [Machine.freqAt, h.at_ i _ (List.getElem?_eq_getElem hi), List.getElem?_eq_getElem hi]
  cases nodes[i] <;> rfl

/-- The least index of a relabelled queue is the relabelled least index. -/
theorem Relabels.extractMin {σ : Nat → Nat} {nodes nodes' : List Node} (h : Relabels σ nodes nodes')
    (hσ : Function.Injective σ) {q q' : List Nat} (hq : q'.Perm (q.map σ)) (hlt : ∀ c ∈ q, c < nodes.length) {a : Nat}
    (ha : a ∈ q) (la : ∀ c ∈ q, c ≠ a → Machine.beforeAt nodes a c = true) :
    ∃ q1, Machine.extractMin nodes' q' = some (σ a, q1) ∧ q1.Perm ((q.erase a).map σ) := by
  refine ⟨q'.erase (σ a), extractMin_of_least (hq.symm.subset (List.mem_map_of_mem ha)) ?_, ?_⟩
  · intro c hc hne
    obtain ⟨d, hd, rfl⟩ := List.mem_map.1 (hq.subset hc)
    rw [h.beforeAt (hlt a ha) (hlt d hd)]
    exact la d hd fun hda => hne (by rw [hda])
  · rw [List.map_erase hσ]
    exact hq.erase (σ a)

/-- The merge loop over relabelled nodes and a relabelled queue, in any order, makes the relabelled nodes (R138). -/
theorem mergeLoop_relabel {alpha : List AlphaEntry} (hN : alpha.length ≤ 32768)
    (hd : (alpha.map AlphaEntry.sym).Nodup) {σ : Nat → Nat} (hσ : Function.Injective σ)
    (hid : ∀ i, alpha.length ≤ i → σ i = i) :
    ∀ (m seq : Nat) (nodes nodes' : List Node) (q q' : List Nat), MergeInv alpha m seq nodes q →
      Relabels σ nodes nodes' → q'.Perm (q.map σ) →
      ∃ out out', mergeLoop m seq nodes q = .ok out ∧ mergeLoop m seq nodes' q' = .ok out' ∧ Relabels σ out out'
  | 0, _, nodes, nodes', _, _, _, hr, _ => ⟨nodes, nodes', rfl, rfl, hr⟩
  | m + 1, seq, nodes, nodes', q, q', w, hr, hq => by
    have hlt : ∀ c ∈ q, c < nodes.length := fun c hc => ((w.free c).1 hc).1
    have hs := w.size
    have hgo := w.toGo
    obtain ⟨a, ea, ha, la⟩ := extractMin_spec nodes (q := q) (by rintro rfl; simpa using w.queue)
    have hlt1 : ∀ c ∈ q.erase a, c < nodes.length := fun c hc => hlt c (List.mem_of_mem_erase hc)
    obtain ⟨b, eb, hb, lb⟩ := extractMin_spec nodes (q := q.erase a) (by
      intro e
      have := List.length_erase_of_mem ha
      rw [e, w.queue] at this; simp at this)
    obtain ⟨q1, ea', hq1⟩ := hr.extractMin hσ hq hlt ha fun c hc hne =>
      w.total hd hN (hlt a ha) (hlt c hc) (Ne.symm hne) (la c hc)
    obtain ⟨q2, eb', hq2⟩ := hr.extractMin hσ hq1 hlt1 hb fun c hc hne =>
      w.total hd hN (hlt1 b hb) (hlt1 c hc) (Ne.symm hne) (lb c hc)
    have ta : (BitVec.ofNat 16 a).toNat = a := by have := hlt a ha; simp; omega
    have tb : (BitVec.ofNat 16 b).toNat = b := by have := hlt1 b hb; simp; omega
    have hlen : σ nodes.length = nodes.length := hid _ (by omega)
    have hr' : Relabels σ
        (nodes ++ [.internal (freqAt nodes a + freqAt nodes b) (BitVec.ofNat 16 seq) (BitVec.ofNat 16 a)
          (BitVec.ofNat 16 b)])
        (nodes' ++ [.internal (freqAt nodes' (σ a) + freqAt nodes' (σ b)) (BitVec.ofNat 16 seq) (BitVec.ofNat 16 (σ a))
          (BitVec.ofNat 16 (σ b))]) := by
      refine ⟨by simp [hr.len], fun i x hx => ?_⟩
      rcases Nat.lt_trichotomy i nodes.length with hi | rfl | hi
      · rw [List.getElem?_append_left hi] at hx
        have := hr.at_ i x hx
        rw [List.getElem?_append_left (List.getElem?_eq_some_iff.1 this).1, this]
      · rw [List.getElem?_concat_length] at hx
        cases hx
        rw [hlen, ← hr.len, List.getElem?_concat_length]
        simp only [Node.relabel, ta, tb, hr.freqAt (hlt a ha), hr.freqAt (hlt1 b hb)]
      · rw [List.getElem?_eq_none (by simp; omega)] at hx; cases hx
    have hq' : (nodes'.length :: q2).Perm ((nodes.length :: (q.erase a).erase b).map σ) := by
      rw [List.map_cons, hlen, hr.len]
      exact hq2.cons _
    obtain ⟨out, out', e, e', ho⟩ :=
      mergeLoop_relabel hN hd hσ hid m (seq + 1) _ _ _ _ (w.merge hN ha hb la lb) hr' hq'
    exact ⟨out, out', by simp only [mergeLoop, ea, eb, e], by simp only [mergeLoop, ea', eb', e'], ho⟩

end Sys2Proof.Machine
end

