-- ==== Sys2Proof/Laws/PerInstr.lean ====
section
/-! SUPPORT. What is said of every command as syntax, one lemma for each constructor of `Instr`. -/

namespace Sys2Proof.Laws

/-! ### The word of a command is legal, whatever its operands (30_encoding.md R82, R84, R86) -/

/-- The word of the command passes every check of R85 and R86, and its opcode is the one of its row in R84. -/
def EncodesWellFormed.Statement (i : Instr) : Prop :=
  (Fields.ofWord (encode i)).wf = true ∧
    (opcodeMap[(Fields.ofWord (encode i)).op.toNat]?).map OpcodeRow.mnemonic = some i.mnemonic

/-- The statement, said of a command's fields. -/
theorem EncodesWellFormed.of_fields {i : Instr} (h1 : i.fields.wf = true)
    (h2 : (opcodeMap[i.fields.op.toNat]?).map OpcodeRow.mnemonic = some i.mnemonic) : Statement i := by
  unfold Statement Sys2Proof.encode
  rw [Fields.ofWord_word]
  exact ⟨h1, h2⟩

theorem EncodesWellFormed.nop : EncodesWellFormed.Statement .nop := of_fields rfl rfl
theorem EncodesWellFormed.clear : EncodesWellFormed.Statement .clear := of_fields rfl rfl
theorem EncodesWellFormed.loadSym (sym : Sym) (freq : Freq) : EncodesWellFormed.Statement (.loadSym sym freq) :=
  of_fields rfl rfl
theorem EncodesWellFormed.build : EncodesWellFormed.Statement .build := of_fields rfl rfl
theorem EncodesWellFormed.derive : EncodesWellFormed.Statement .derive := of_fields rfl rfl
theorem EncodesWellFormed.setBufsize (size : Val) : EncodesWellFormed.Statement (.setBufsize size) := of_fields rfl rfl
theorem EncodesWellFormed.encode (sym : Sym) : EncodesWellFormed.Statement (.encode sym) := of_fields rfl rfl
theorem EncodesWellFormed.finish : EncodesWellFormed.Statement .finish := of_fields rfl rfl
theorem EncodesWellFormed.readReg (reg : Val) : EncodesWellFormed.Statement (.readReg reg) := of_fields rfl rfl
theorem EncodesWellFormed.readAlpha (k : Val) : EncodesWellFormed.Statement (.readAlpha k) := of_fields rfl rfl
theorem EncodesWellFormed.readNode (node : Val) : EncodesWellFormed.Statement (.readNode node) := of_fields rfl rfl
theorem EncodesWellFormed.readCode (k : Val) (w : BitVec 21) : EncodesWellFormed.Statement (.readCode k w) :=
  of_fields rfl rfl

end Sys2Proof.Laws
end

