-- ==== Sys2Proof/Laws/Sink.lean ====
section
/-! SUPPORT. The writes that packing issues and the answers it draws (20_memory.md R64, R68; 43_bit_packer.md R183;
60_exceptions.md R215), said once for FlushBuf, AppendBit, the bits of a code and the last write of FINISH. -/

namespace Sys2Proof.Machine

/-- The sink's next answers are `xs`, and `b` is what it answers after them. -/
def AckScript.Drawn : AckScript → List Ack → AckScript → Prop
  | a, [], b => b = a
  | a, x :: xs, b => ∃ c, a.answer = some (x, c) ∧ AckScript.Drawn c xs b

theorem AckScript.Drawn.append {a b c : AckScript} {xs ys : List Ack} (h : AckScript.Drawn a xs b)
    (g : AckScript.Drawn b ys c) : AckScript.Drawn a (xs ++ ys) c := by
  induction xs generalizing a with
  | nil => cases h; exact g
  | cons x xs ih => obtain ⟨d, hd, h⟩ := h; exact ⟨d, hd, ih h⟩

/-- A sink that is silent after `acks` answers them in order and then nothing (R241, R247). -/
theorem AckScript.Drawn.silent {acks xs : List Ack} {b : AckScript}
    (h : AckScript.Drawn { acks := acks, thereafter := .silent } xs b) :
    ∃ rest, acks = xs ++ rest ∧ b = { acks := rest, thereafter := .silent } := by
  induction xs generalizing acks with
  | nil => exact ⟨acks, rfl, h⟩
  | cons x xs ih =>
    obtain ⟨d, hd, h⟩ := h
    cases acks with
    | nil => simp [AckScript.answer] at hd
    | cons y ys =>
      simp only [AckScript.answer, Option.some.injEq, Prod.mk.injEq] at hd
      obtain ⟨rfl, rfl⟩ := hd
      obtain ⟨rest, rfl, hb⟩ := ih h
      exact ⟨rest, rfl, hb⟩

/-- The next answer of a sink that answers every write OK. -/
theorem AckScript.answer_allOk {a : AckScript} (h : a.allOk = true) :
    ∃ b, a.answer = some (.ok, b) ∧ b.allOk = true := by
  obtain ⟨acks, tail⟩ := a
  simp only [AckScript.allOk, Bool.and_eq_true, beq_iff_eq] at h
  obtain ⟨h1, rfl⟩ := h
  cases acks with
  | nil => exact ⟨_, rfl, rfl⟩
  | cons x xs =>
    simp only [List.all_cons, Bool.and_eq_true, beq_iff_eq] at h1
    obtain ⟨rfl, h1⟩ := h1
    exact ⟨{ acks := xs, thereafter := .always .ok }, rfl, by simp only [AckScript.allOk, h1]; rfl⟩

/-- A sink that answers every write OK goes on doing so. -/
theorem AckScript.Drawn.allOk {a b : AckScript} {xs : List Ack} (h : AckScript.Drawn a xs b) (ha : a.allOk = true) :
    b.allOk = true := by
  induction xs generalizing a with
  | nil => cases h; exact ha
  | cons x xs ih =>
    obtain ⟨d, hd, h⟩ := h
    obtain ⟨e, he, hok⟩ := AckScript.answer_allOk ha
    rw [hd] at he; cases he
    exact ih h hok

/-- What the answers to the writes `new` have to do with the outcome. -/
def PackResult.Answered (r : PackResult) (new : List SinkWrite) : Prop :=
  match r with
  | .ok _ => ∀ w ∈ new, w.ack = some .ok
  | .ioFail t => ∃ front, new = front ++ [⟨t.obuf, some .fail⟩] ∧ ∀ w ∈ front, w.ack = some .ok
  | .hang t => (∀ w ∈ new, w.ack = some .ok) ∧ t.ackScript.answer = none

/-- The writes a packing operation issues from `s`: their answers are the sink's next ones, in order; each write but a
failed last one was answered OK; the failed one holds OBUF; a write that waits has no answer. -/
structure Issues (s : State) (r : PackResult) (new : List SinkWrite) (xs : List Ack) : Prop where
  sink : r.state.sink = s.sink ++ new
  acks : new.map SinkWrite.ack = xs.map some
  drawn : AckScript.Drawn s.ackScript xs r.state.ackScript
  outcome : r.Answered new

/-- A first part that goes on, and what follows it. -/
theorem Issues.after {s t : State} {r : PackResult} {new new' : List SinkWrite} {xs xs' : List Ack}
    (h : Issues s (.ok t) new xs) (g : Issues t r new' xs') : Issues s r (new ++ new') (xs ++ xs') where
  sink := by rw [g.sink]; simp only [show t.sink = s.sink ++ new from h.sink, List.append_assoc]
  acks := by rw [List.map_append, h.acks, g.acks, List.map_append]
  drawn := h.drawn.append g.drawn
  outcome := by
    have ho := h.outcome
    have go := g.outcome
    cases r with
    | ok u => intro w hw; rcases List.mem_append.1 hw with hw | hw; exacts [ho w hw, go w hw]
    | ioFail u =>
      obtain ⟨front, rfl, hf⟩ := go
      refine ⟨new ++ front, by rw [List.append_assoc], ?_⟩
      intro w hw; rcases List.mem_append.1 hw with hw | hw; exacts [ho w hw, hf w hw]
    | hang u =>
      refine ⟨?_, go.2⟩
      intro w hw; rcases List.mem_append.1 hw with hw | hw; exacts [ho w hw, go.1 w hw]

/-- An operation that leaves the sink and its answers alone issues nothing. -/
theorem Issues.none {s t : State} (h : t.sink = s.sink) (ha : t.ackScript = s.ackScript) : Issues s (.ok t) [] [] where
  sink := by simpa [PackResult.state] using h
  acks := rfl
  drawn := ha
  outcome := by intro w hw; cases hw

theorem flushBuf_issues (s : State) : ∃ new xs, Issues s (flushBuf s) new xs ∧ ∀ w ∈ new, w.bytes = s.obuf := by
  obtain ⟨ha, h⟩ | ⟨rest, ha, h⟩ | ⟨rest, ha, h⟩ := flushBuf_cases s <;> rw [h]
  · exact ⟨[], [], ⟨by simp [PackResult.state], rfl, rfl, (fun w hw => nomatch hw), ha⟩, by simp⟩
  · exact ⟨[⟨s.obuf, some .fail⟩], [.fail], ⟨rfl, rfl, ⟨rest, ha, rfl⟩, [], rfl, fun w hw => nomatch hw⟩, by simp⟩
  · exact ⟨[⟨s.obuf, some .ok⟩], [.ok], ⟨rfl, rfl, ⟨rest, ha, rfl⟩, fun w hw => by simp_all⟩, by simp⟩

theorem appendBit_issues (s : State) (b : Bool) :
    ∃ new xs, Issues s (appendBit s b) new xs ∧ ∀ w ∈ new, w.bytes.length = s.bufSize.toNat := by
  have h0 : Issues s (.ok (bitIn s b)) [] [] := .none (by simp) (by simp)
  rw [appendBit_eq]
  split
  · next h =>
    obtain ⟨new, xs, hi, hl⟩ := flushBuf_issues (bitIn s b)
    exact ⟨_, _, h0.after hi, fun w hw => by rw [hl w (by simpa using hw)]; exact h.2⟩
  · exact ⟨_, _, h0, by simp⟩

/-- The writes of the bits of a code: each is one full buffer (R182, R190). -/
theorem appendBits_issues (c : Code) (s : State) :
    ∃ new xs, Issues s (appendBits s c) new xs ∧ ∀ w ∈ new, w.bytes.length = s.bufSize.toNat := by
  induction c generalizing s with
  | nil => exact ⟨[], [], .none rfl rfl, by simp⟩
  | cons b rest ih =>
    obtain ⟨new, xs, h, hl⟩ := appendBit_issues s b
    have hs := (appendBit_packStep s b).same.bufSize
    unfold appendBits
    split
    · next t e =>
      rw [e] at h hs
      obtain ⟨new', xs', h', hl'⟩ := ih t
      refine ⟨_, _, h.after h', ?_⟩
      intro w hw
      rcases List.mem_append.1 hw with hw | hw
      · exact hl w hw
      · rw [hl' w hw]; simp only [PackResult.state] at hs; rw [hs]
    · next t e => rw [e] at h; exact ⟨new, xs, ⟨h.sink, h.acks, h.drawn, h.outcome⟩, hl⟩
    · next t e => rw [e] at h; exact ⟨new, xs, ⟨h.sink, h.acks, h.drawn, h.outcome⟩, hl⟩

/-- With every answer OK no packing operation fails or waits. -/
theorem Issues.allOk {s : State} {r : PackResult} {new : List SinkWrite} {xs : List Ack} (h : Issues s r new xs)
    (ha : s.ackScript.allOk = true) : (∃ t, r = .ok t) ∧ r.state.ackScript.allOk = true := by
  refine ⟨?_, h.drawn.allOk ha⟩
  cases r with
  | ok t => exact ⟨t, rfl⟩
  | ioFail t =>
    exfalso
    obtain ⟨front, rfl, -⟩ := h.outcome
    have hacks := h.acks
    have hd := h.drawn
    have all : ∀ (xs : List Ack) (a b : AckScript), AckScript.Drawn a xs b → a.allOk = true → ∀ x ∈ xs, x = .ok := by
      intro xs
      induction xs with
      | nil => simp
      | cons x xs ih =>
        rintro a b ⟨d, hx, h⟩ ha y hy
        obtain ⟨e, he, hok⟩ := AckScript.answer_allOk ha
        rw [hx] at he; cases he
        rcases List.mem_cons.1 hy with rfl | hy
        · rfl
        · exact ih _ _ h hok y hy
    have : some Ack.fail ∈ xs.map some := by rw [← hacks]; simp
    simp only [List.mem_map, Option.some.injEq, exists_eq_right] at this
    cases all _ _ _ hd ha _ this
  | hang t =>
    exfalso
    obtain ⟨-, hn⟩ := h.outcome
    obtain ⟨b, hb, -⟩ := AckScript.answer_allOk (h.drawn.allOk ha)
    simp only [PackResult.state] at hb
    rw [hn] at hb; cases hb

/-- The last write of FINISH: at most one, of what remains (R184). -/
theorem flushRest_issues (s : State) :
    ∃ new xs, Issues s (flushRest s) new xs ∧ new.length ≤ 1 ∧ ∀ w ∈ new, w.bytes = s.obuf ∧ s.obuf ≠ [] := by
  unfold flushRest
  split
  · exact ⟨[], [], .none rfl rfl, by simp, by simp⟩
  · next hne =>
    obtain ⟨new, xs, h, hl⟩ := flushBuf_issues s
    refine ⟨new, xs, h, ?_, fun w hw => ⟨hl w hw, hne⟩⟩
    obtain ⟨-, e⟩ | ⟨rest, -, e⟩ | ⟨rest, -, e⟩ := flushBuf_cases s <;>
    · have hs := h.sink
      rw [e] at hs
      have := congrArg List.length hs
      simp only [PackResult.state, List.length_append, List.length_singleton] at this
      omega

/-- The last write of FINISH keeps everything a packing operation keeps. -/
theorem flushRest_packStep (s : State) : PackStep s (flushRest s).state := by
  unfold flushRest
  split
  · exact .refl s
  · exact flushBuf_packStep s

/-- The last write of FINISH moves bytes to the output and does not change the bitstream. -/
theorem flushRest_stream (s : State) (hr : s.runStart ≤ s.sink.length) : (flushRest s).state.stream = s.stream := by
  unfold flushRest
  split
  · rfl
  · exact flushBuf_stream s hr

/-- When FINISH goes on, no byte remains in OBUF, and ACC and ACC_N are untouched (R184). -/
theorem flushRest_ok {s t : State} (h : flushRest s = .ok t) : t.obuf = [] ∧ t.acc = s.acc ∧ t.accN = s.accN := by
  unfold flushRest at h
  split at h
  · next he => cases h; exact ⟨he, rfl, rfl⟩
  · obtain ⟨-, e⟩ | ⟨rest, -, e⟩ | ⟨rest, -, e⟩ := flushBuf_cases s <;> rw [e] at h <;> cases h
    exact ⟨rfl, rfl, rfl⟩

/-! ### The frame of a body -/

/-- What no body touches: the inputs but the sink's answers, the position and the responses. -/
structure SameLog (s t : State) : Prop where
  host : t.host = s.host
  params : t.params = s.params
  pos : t.pos = s.pos
  responses : t.responses = s.responses
  /-- the run still begins within the responses; it begins at their end after CLEAR -/
  begins : s.runAnswered ≤ s.responses.length → t.runAnswered ≤ t.responses.length

theorem SameOutsidePacker.log {s t : State} (h : SameOutsidePacker s t) : SameLog s t :=
  ⟨h.host, h.params, h.pos, h.responses, by rw [h.runAnswered, h.responses]; exact id⟩

theorem BodyDone.same {i : Instr} {s u : State} {d0 d1 : Word} (h : BodyDone s i u d0 d1) : SameLog s u := by
  cases h with
  | @encode _ c _ hc h =>
    have := (appendBits_packStep c { s with phase := .encoding }).same
    rw [h] at this
    exact ⟨this.host, this.params, this.pos, this.responses, this.log.begins⟩
  | finish h =>
    have := (padLastByte_same s).trans (flushRest_packStep (padLastByte s)).same
    rw [h] at this
    exact ⟨this.host, this.params, this.pos, this.responses, this.log.begins⟩
  | clear => exact ⟨rfl, rfl, rfl, rfl, fun _ => le_rfl⟩
  | _ => exact ⟨rfl, rfl, rfl, rfl, id⟩

/-- Only a read sets data words (R63). -/
theorem BodyDone.data {i : Instr} {s u : State} {d0 d1 : Word} (h : BodyDone s i u d0 d1) (hi : isRead i = false) :
    d0 = 0#64 ∧ d1 = 0#64 := by
  cases h <;> simp_all

theorem BodyFatal.same {i : Instr} {s u : State} {e : ErrCode} (h : BodyFatal s i e u) : SameLog s u := by
  cases h with
  | @encodeIo _ c _ hc h =>
    have := (appendBits_packStep c { s with phase := .encoding }).same
    rw [h] at this
    exact ⟨this.host, this.params, this.pos, this.responses, this.log.begins⟩
  | finishIo h =>
    have := (padLastByte_same s).trans (flushRest_packStep (padLastByte s)).same
    rw [h] at this
    exact ⟨this.host, this.params, this.pos, this.responses, this.log.begins⟩
  | _ => exact ⟨rfl, rfl, rfl, rfl, id⟩

end Sys2Proof.Machine
end

