-- ==== Sys2Proof/Laws/Run.lean ====
section
/-! SUPPORT. The current run (43_bit_packer.md R188): which responses belong to it, what its last response shows, and how
much of its bitstream the sink does not hold. -/

namespace Sys2Proof.Machine

theorem State.clearBlock_runResponses (s : State) : s.clearBlock.runResponses = [] := by
  simp [State.runResponses, State.clearBlock_responses]

theorem State.respond_runResponses (s : State) (d0 d1 : Word) (h : s.runAnswered ≤ s.responses.length) :
    (s.respond d0 d1).runResponses = s.runResponses ++ [⟨s.status, d0, d1⟩] := by
  simp [State.runResponses, List.drop_append_of_le_length h]

/-- A response makes the run's last response show STATUS, whatever it showed before. -/
theorem RunInv.of_respond {s : State} (d0 d1 : Word) (h : s.runAnswered ≤ s.responses.length) :
    RunInv (s.respond d0 d1) where
  begins := by simp; omega
  shows r hr := by
    rw [State.respond_runResponses s d0 d1 h] at hr
    simp at hr
    rw [← hr, State.respond_status]
  quiet hq := by simp [State.respond_runResponses s d0 d1 h] at hq

/-- Reset and CLEAR begin a run with no response. -/
theorem RunInv.of_clearBlock (s : State) : RunInv s.clearBlock where
  begins := by simp [State.clearBlock_responses]
  shows r hr := by simp [State.clearBlock_runResponses] at hr
  quiet _ := State.clearBlock_status s

/-- Every command leaves the last response of the run showing STATUS. -/
theorem RunInv.of_exec {i : Instr} {s t : State} (hr : s.runAnswered ≤ s.responses.length) (h : exec i s = .next t) :
    RunInv t := by
  rcases exec_cases h with ⟨-, rfl⟩ | ⟨-, ⟨u, d0, d1, hb, rfl⟩ | ⟨e, -, rfl⟩ | ⟨e, u, hb, rfl⟩⟩
  · exact .of_respond _ _ hr
  · exact .of_respond _ _ ((body_done hb).same.begins hr)
  · exact .of_respond _ _ hr
  · exact .of_respond _ _ ((body_fatal hb).same.begins hr)

/-- The last response of the run shows the phase; only LOAD can stand with no response. -/
theorem RunInv.runShows_iff {s : State} (h : RunInv s) {p : Phase} (hp : p ≠ .load) :
    s.runShows p = true ↔ s.phase = p := by
  unfold State.runShows
  split
  · next r hr =>
    rw [h.shows r hr, status_phase]
    cases s.phase <;> cases p <;> simp_all [Phase.code]
  · next hr =>
    have hs := status_phase s
    rw [h.quiet (List.getLast?_eq_none_iff.1 hr)] at hs
    cases hph : s.phase <;> simp [hph, Phase.code, Ne.symm hp] at hs ⊢

/-- What the host does next does not matter to the invariant. -/
theorem Inv.with_host {s : State} (h : Machine.Inv s) (events : List HostEvent) :
    Machine.Inv { s with host := events } := by
  obtain ⟨⟨⟨a1, a2, a3, a4⟩, ⟨b1, b2, b3, b4⟩, ⟨c1, c2, c3, c4⟩, ⟨d1, d2, d3, d4, d5, d6, d7, d8⟩,
    ⟨e1, e2, e3, e4, e5⟩⟩, ⟨f1, f2, f3⟩⟩ := h
  exact ⟨⟨⟨a1, a2, a3, a4⟩, ⟨b1, b2, b3, b4⟩, ⟨c1, c2, c3, c4⟩, ⟨d1, d2, d3, d4, d5, d6, d7, d8⟩,
    ⟨e1, e2, e3, e4, e5⟩⟩, ⟨f1, f2, f3⟩⟩

/-- What OBUF and ACC still hold of the bitstream, in bits (R74). -/
theorem stream_unwritten (s : State) :
    ∃ rest, s.stream = bytesBits s.output ++ rest ∧ rest.length = 8 * s.obuf.length + s.accN.val :=
  ⟨bytesBits s.obuf ++ accBits s.acc s.accN.val, by simp [State.stream], by simp [bytesBits_length, accBits]⟩

end Sys2Proof.Machine
end

