-- ==== Sys2Proof/Machine/Assembler.lean ====
section
/-! DEFINITION. The assembler syntax (30_encoding.md R89) and the pseudo-instructions (R90).  They are the host's way to
write command sequences down; no command of the block depends on them (92_eei_decisions.md D27, D36). -/

namespace Sys2Proof.Machine

/-- The commands a pseudo-instruction stands for, in order (R90). -/
def expand : Pseudo → List Instr
  | .loadAlphabet entries => entries.map fun e => .loadSym e.1 e.2
  | .buildCodes => [.build, .derive]
  | .encodeText text => text.map .encode
  | .compress size entries text =>
    [.setBufsize size] ++ (entries.map fun e => .loadSym e.1 e.2) ++ [.build, .derive] ++ text.map .encode ++ [.finish]

/-- The pieces of a line of assembly. -/
inductive Token where
  | word (cs : List Char)
  | quoted (c : Char)
  | text (cs : List Char)
  | comma
  | opening
  | closing
  | malformed
  deriving DecidableEq, Repr

/-- Where the reader of a line stands: in a word, or in a text in double quotes; with what it has read of it, in
reverse. -/
inductive Reading where
  | inWord (acc : List Char)
  | inText (acc : List Char)

/-- A word that has been read, before the tokens after it. -/
def endWord (acc : List Char) (rest : List Token) : List Token :=
  if acc = [] then rest else .word acc.reverse :: rest

/-- The tokens of a line: `;` starts a comment, operands are separated by commas, a symbol may stand in single quotes
(R89); a pair stands in parentheses and a text in double quotes (R90). -/
def tokens : Reading → List Char → List Token
  | .inText _, [] => [.malformed]
  | .inText acc, c :: rest =>
    if c = '"' then .text acc.reverse :: tokens (.inWord []) rest else tokens (.inText (c :: acc)) rest
  | .inWord acc, [] => endWord acc []
  | .inWord acc, ';' :: _ => endWord acc []
  | .inWord acc, '\'' :: c :: '\'' :: rest => endWord acc (.quoted c :: tokens (.inWord []) rest)
  | .inWord acc, ',' :: rest => endWord acc (.comma :: tokens (.inWord []) rest)
  | .inWord acc, '(' :: rest => endWord acc (.opening :: tokens (.inWord []) rest)
  | .inWord acc, ')' :: rest => endWord acc (.closing :: tokens (.inWord []) rest)
  | .inWord acc, c :: rest =>
    if c = '"' then endWord acc (tokens (.inText []) rest)
    else if c.isWhitespace then endWord acc (tokens (.inWord []) rest)
    else tokens (.inWord (c :: acc)) rest

/-- The value of a hexadecimal digit. -/
def digitValue (c : Char) : Option Nat :=
  if '0' ≤ c ∧ c ≤ '9' then some (c.toNat - '0'.toNat)
  else if 'a' ≤ c ∧ c ≤ 'f' then some (c.toNat - 'a'.toNat + 10)
  else if 'A' ≤ c ∧ c ≤ 'F' then some (c.toNat - 'A'.toNat + 10)
  else none

/-- The number that digits of a base spell, after a leading part of value `acc`; `_` has no meaning in a hexadecimal
literal (00_scope.md R7). -/
def digits (base acc : Nat) : List Char → Option Nat
  | [] => some acc
  | c :: rest =>
    if base = 16 ∧ c = '_' then digits base acc rest
    else
      match digitValue c with
      | none => none
      | some d => if d < base then digits base (base * acc + d) rest else none

/-- A number: decimal, or hexadecimal after `0x` (R89).  R7 and R89 do not say whether separators with no digit after
`0x` are a number: DESIGN CHOICE (log entry 13), `0x_` reads as 0, while `0x` alone is no number. -/
def number : List Char → Option Nat
  | '0' :: 'x' :: c :: rest => digits 16 0 (c :: rest)
  | c :: rest => digits 10 0 (c :: rest)
  | [] => none

/-- The symbol of a character: its Unicode scalar value (R12). -/
def symOfChar (c : Char) : Sym := BitVec.ofNat 21 c.toNat

/-- A `<sym>`: a number below 2^21, or a quoted character, which stands for its Unicode scalar value (R89, R12). -/
def symOperand : Token → Option Sym
  | .quoted c => some (symOfChar c)
  | .word cs =>
    match number cs with
    | some v => if v < 2 ^ 21 then some (BitVec.ofNat 21 v) else none
    | none => none
  | _ => none

/-- A `<freq>`, `<size>`, `<k>` or `<i>`: a number that fits VAL (R89, R83). -/
def valOperand : Token → Option Val
  | .word cs =>
    match number cs with
    | some v => if v < 2 ^ 32 then some (BitVec.ofNat 32 v) else none
    | none => none
  | _ => none

/-- A `<w>`: a number that fits B (R89, R83). -/
def wordIndexOperand : Token → Option (BitVec 21)
  | .word cs => symOperand (.word cs)
  | _ => none

/-- The register names of 10_state.md R37, by number. -/
def registerNames : List String :=
  ["STATUS", "BUF_SIZE", "ALPHA_N", "TREE_ROOT", "PACK_ACC", "OBUF_LEN", "BITS_IN", "BYTES_OUT", "WRITES",
    "PARAM_N_MAX", "PARAM_BUF_MAX"]

/-- A `<reg>`: a number, or a register name (R89). -/
def regOperand (t : Token) : Option Val :=
  match t with
  | .word cs =>
    match registerNames.findIdx? fun name => name.toList == cs with
    | some i => some (BitVec.ofNat 32 i)
    | none => valOperand t
  | _ => none

/-- The command that a mnemonic and its operands write (R89).  READ_CODE writes `k` first. -/
def assembleTokens (mnemonic : String) (operands : List Token) : Option Instr :=
  match operands with
  | [] =>
    if mnemonic = "NOP" then some .nop
    else if mnemonic = "CLEAR" then some .clear
    else if mnemonic = "BUILD" then some .build
    else if mnemonic = "DERIVE" then some .derive
    else if mnemonic = "FINISH" then some .finish
    else none
  | [a] =>
    if mnemonic = "SET_BUFSIZE" then (valOperand a).map .setBufsize
    else if mnemonic = "ENCODE" then (symOperand a).map .encode
    else if mnemonic = "READ_REG" then (regOperand a).map .readReg
    else if mnemonic = "READ_ALPHA" then (valOperand a).map .readAlpha
    else if mnemonic = "READ_NODE" then (valOperand a).map .readNode
    else none
  | [a, .comma, b] =>
    if mnemonic = "LOAD_SYM" then
      match symOperand a, valOperand b with
      | some sym, some freq => some (.loadSym sym freq)
      | _, _ => none
    else if mnemonic = "READ_CODE" then
      match valOperand a, wordIndexOperand b with
      | some k, some w => some (.readCode k w)
      | _, _ => none
    else none
  | _ => none

/-- The pairs `(s0,f0), (s1,f1), ...` that the operands begin with, and the operands after them (R90). -/
def pairs : List Token → Option (List (Sym × Freq) × List Token)
  | [.opening, a, .comma, b, .closing] =>
    match symOperand a, valOperand b with
    | some sym, some freq => some ([(sym, freq)], [])
    | _, _ => none
  | .opening :: a :: .comma :: b :: .closing :: .comma :: next :: rest =>
    match symOperand a, valOperand b, pairs (next :: rest) with
    | some sym, some freq, some (more, left) => some ((sym, freq) :: more, left)
    | _, _, _ => none
  | .text cs :: rest => some ([], .text cs :: rest)
  | _ => none

/-- The pseudo-instruction that a name and its operands write (R90), with at least one pair where it takes pairs. -/
def pseudoTokens (name : String) (operands : List Token) : Option Pseudo :=
  if name = "LOAD_ALPHABET" then
    match pairs operands with
    | some (e :: more, []) => some (.loadAlphabet (e :: more))
    | _ => none
  else if name = "BUILD_CODES" then
    if operands = [] then some .buildCodes else none
  else if name = "ENCODE_TEXT" then
    match operands with
    | [.text cs] => some (.encodeText (cs.map symOfChar))
    | _ => none
  else if name = "COMPRESS" then
    match operands with
    | size :: .comma :: rest =>
      match valOperand size, pairs rest with
      | some n, some (e :: more, [.text cs]) => some (.compress n (e :: more) (cs.map symOfChar))
      | _, _ => none
    | _ => none
  else none

/-- A line of assembly (R89, R90): blank (or a comment), one command, one pseudo-instruction, or neither. -/
inductive Line where
  | blank
  | command (i : Instr)
  | pseudo (p : Pseudo)
  | malformed
  deriving DecidableEq, Repr

/-- Read one line: one command a line, the mnemonic first (R89). -/
def assembleLine (line : String) : Line :=
  match tokens (.inWord []) line.toList with
  | [] => .blank
  | .word m :: operands =>
    match assembleTokens (String.ofList m) operands with
    | some i => .command i
    | none =>
      match pseudoTokens (String.ofList m) operands with
      | some p => .pseudo p
      | none => .malformed
  | _ => .malformed

/-- The commands of a program, line by line, pseudo-instructions expanded; none if a line is malformed (R89, R90). -/
def assemble : List String → Option (List Instr)
  | [] => some []
  | line :: rest =>
    match assembleLine line, assemble rest with
    | _, none => none
    | .blank, some is => some is
    | .command i, some is => some (i :: is)
    | .pseudo p, some is => some (expand p ++ is)
    | .malformed, some _ => none

end Sys2Proof.Machine
end

