-- ==== Sys2Proof/Tests/Slice0.lean ====
section
/-! SUPPORT. Tests.  Every expected value is one that the spec writes out (the source is named at each test) or follows
by hand from the rule named.  Then, for each statement with hypotheses, a concrete state and operands that meet them. -/

namespace Sys2Proof.Tests

open Sys2Proof Sys2Proof.Machine

/-! ### Small states, written from the vectors of 95_test_vectors.md -/

/-- The state a command ends in, if it answers one. -/
def after : Host.Outcome State Fault Refusal → Option State
  | .next t => some t
  | .fault _ => none
  | .refused _ => none

theorem exists_after {o : Host.Outcome State Fault Refusal} {p : State → Bool} (h : (after o).any p = true) :
    ∃ t, o = .next t ∧ p t = true := by
  cases o with
  | next t => exact ⟨t, rfl, h⟩
  | fault f => cases h
  | refused r => cases h

/-- The last response of the state a command ends in. -/
def answer (o : Host.Outcome State Fault Refusal) : Option Response := (after o).bind fun t => t.responses.getLast?

/-- The alphabet of V-T2: a:1, b:1, c:2. -/
def abc : List AlphaEntry := [⟨0x61#21, 1#32⟩, ⟨0x62#21, 1#32⟩, ⟨0x63#21, 2#32⟩]

/-- The tree of V-T2. -/
def abcTree : List Node :=
  [.leaf 1#48 0x61#21, .leaf 1#48 0x62#21, .leaf 2#48 0x63#21, .internal 2#48 0#16 0#16 1#16,
    .internal 4#48 1#16 2#16 3#16]

/-- The code table of V-D2. -/
def abcCodes : List Code := [[true, false], [true, true], [false]]

/-- V-T2 loaded, before BUILD. -/
def loaded : State := { State.reset with alpha := abc }

/-- V-T2 after BUILD. -/
def built : State :=
  { loaded with
    phase := .built, treeValid := true, node := abcTree, root := 4#16
    responses := [⟨0x0009#16, 0#64, 0#64⟩], pos := 1 }

/-- V-D2 after DERIVE. -/
def coded : State :=
  { built with phase := .coded, codesValid := true, code := abcCodes, responses := [⟨0x001A#16, 0#64, 0#64⟩] }

/-- V-P8 after ENCODE 'c', 'a', 'b': the bits 01011. -/
def encoding : State :=
  { coded with
    phase := .encoding, acc := 0b01011#8, accN := 5, bitsIn := 5#64, responses := [⟨0x001B#16, 0#64, 0#64⟩] }

/-- One bit short of a full one-byte buffer: seven bits 0001010 (the state of V-P19 in the codes of V-D2). -/
def nearlyFull : State :=
  { coded with phase := .encoding, bufSize := 1#32, acc := 0b0001010#8, accN := 7, bitsIn := 7#64 }

/-- FAULT after BUILD of an empty alphabet (V-X4, V-X5). -/
def faulted : State := { State.reset with phase := .fault, faultCause := .errEmpty, lastErr := .errEmpty }

/-- V-T7 after BUILD: one symbol z:5. -/
def builtOne : State :=
  { State.reset with
    alpha := [⟨0x7A#21, 5#32⟩], phase := .built, treeValid := true, node := [.leaf 5#48 0x7A#21] }

/-- A sink that fails every write (P6). -/
def failing : AckScript := { acks := [], thereafter := .always .fail }

/-- A sink that never answers (R247). -/
def silent : AckScript := { acks := [], thereafter := .silent }

/-! ### Well-formedness: one ill-formed term for each check (R5, R82, R85, R86) -/

theorem test_wf_reserved_opcode : (Fields.mk 0xC#4 0#7 0#21 0#32).opDefined = false := by decide
theorem test_wf_reserved_bits : (Fields.mk 0x0#4 1#7 0#21 0#32).rsvZero = false := by decide
theorem test_wf_unused_b : (Fields.mk 0x5#4 0#7 1#21 7#32).bFits = false := by decide
theorem test_wf_unused_val : (Fields.mk 0x6#4 0#7 0x61#21 1#32).valFits = false := by decide
theorem test_wf_refuses :
    (Fields.mk 0xC#4 0#7 0#21 0#32).wf = false ∧ (Fields.mk 0x0#4 1#7 0#21 0#32).wf = false ∧
      (Fields.mk 0x5#4 0#7 1#21 7#32).wf = false ∧ (Fields.mk 0x6#4 0#7 0x61#21 1#32).wf = false := by decide
theorem test_wf_accepts : (Fields.mk 0x2#4 0#7 0x1FFFFF#21 0xFFFFFFFF#32).wf = true := by decide
theorem test_wf_params :
    (Params.mk 0 1#32).wf = false ∧ (Params.mk 32769 1#32).wf = false ∧ (Params.mk 1 0#32).wf = false ∧
      (Params.mk 1 1#32).wf = true ∧ (Params.mk 32768 0xFFFFFFFF#32).wf = true ∧ Params.default.wf = true := by decide

/-! ### Decoding: the words of 30_encoding.md R91, one for each command, and the illegal ones of 2.1 -/

theorem test_decode_nop : decode 0x0000000000000000#64 = .ok .nop := by decide
theorem test_decode_clear : decode 0x1000000000000000#64 = .ok .clear := by decide
theorem test_decode_load_sym : decode 0x200000740000001B#64 = .ok (.loadSym 0x74#21 27#32) := by decide
theorem test_decode_build : decode 0x3000000000000000#64 = .ok .build := by decide
theorem test_decode_derive : decode 0x4000000000000000#64 = .ok .derive := by decide
theorem test_decode_set_bufsize : decode 0x5000000000000007#64 = .ok (.setBufsize 7#32) := by decide
theorem test_decode_encode : decode 0x6000007400000000#64 = .ok (.encode 0x74#21) := by decide
theorem test_decode_finish : decode 0x7000000000000000#64 = .ok .finish := by decide
theorem test_decode_read_reg : decode 0x80000000FFFFFFFF#64 = .ok (.readReg 0xFFFFFFFF#32) := by decide
theorem test_decode_read_alpha : decode 0x9000000000000002#64 = .ok (.readAlpha 2#32) := by decide
theorem test_decode_read_node : decode 0xA00000000000000A#64 = .ok (.readNode 10#32) := by decide
theorem test_decode_read_code : decode 0xB000000400000002#64 = .ok (.readCode 2#32 4#21) := by decide
theorem test_decode_reserved :
    decode 0xD000000000000000#64 = .error .reservedOpcode ∧ decode 0xE000000000000000#64 = .error .reservedOpcode ∧
      decode 0xF000000000000000#64 = .error .reservedOpcode := by decide
theorem test_decode_no_hint : decode 0x0000000000000001#64 = .error .unusedVal := by decide
theorem test_decode_table_word :
    decodeTableWord 64 0x2000006100000019 = some (.loadSym 0x61#21 25#32) ∧ decodeTableWord 64 (2 ^ 64 - 1) = none ∧
      decodeTableWord 72 0 = none := by decide

/-! ### The assembler (R89, R90): lines of R91 and of P1 -/

theorem test_assemble_symbol : assembleLine "LOAD_SYM   'a', 25 ; comment" = .command (.loadSym 0x61#21 25#32) := by
  decide
theorem test_assemble_read_code : assembleLine "READ_CODE 2, 4" = .command (.readCode 2#32 4#21) := by decide
theorem test_assemble_register : assembleLine "READ_REG BITS_IN" = .command (.readReg 6#32) := by decide
theorem test_assemble_hex : assembleLine "ENCODE 0x74" = .command (.encode 0x74#21) := by decide
theorem test_assemble_refuses :
    assembleLine "ENCODE 0x200000" = .malformed ∧ assembleLine "HINT" = .malformed ∧ assembleLine "; none" = .blank := by
  decide
theorem test_assemble_compress :
    assembleLine "COMPRESS 7, ('a',25), (0x65,40), \"at; e\"" =
      .pseudo (.compress 7#32 [(0x61#21, 25#32), (0x65#21, 40#32)] [0x61#21, 0x74#21, 0x3B#21, 0x20#21, 0x65#21]) := by
  decide
theorem test_assemble_program :
    assemble ["LOAD_ALPHABET ('a',25), ('e',40)", "BUILD_CODES ; both", "", "ENCODE_TEXT \"\"", "FINISH"] =
      some [.loadSym 0x61#21 25#32, .loadSym 0x65#21 40#32, .build, .derive, .finish] := by decide
theorem test_assemble_refuses_pairs :
    assembleLine "LOAD_ALPHABET ('a',25)," = .malformed ∧ assembleLine "ENCODE_TEXT \"a" = .malformed := by decide
theorem test_expand_compress :
    expand (.compress 7#32 [(0x61#21, 25#32)] [0x61#21]) =
      [.setBufsize 7#32, .loadSym 0x61#21 25#32, .build, .derive, .encode 0x61#21, .finish] := by decide

/-! ### One step of each command -/

/-- V-C1. -/
theorem test_nop : answer (exec .nop State.reset) = some ⟨0x0000#16, 0#64, 0#64⟩ := by decide
/-- V-X5: LAST_ERR is cleared, FAULT_CAUSE is kept. -/
theorem test_nop_in_fault : answer (exec .nop faulted) = some ⟨0x7007#16, 0#64, 0#64⟩ := by decide
/-- V-C4: the bits held in ACC are discarded, no write is issued. -/
theorem test_clear : (after (exec .clear encoding)).map (fun t => (t.status, t.acc, t.alpha, t.sink, t.bufSize)) =
    some (0x0000#16, 0#8, [], [], 4096#32) := by decide
/-- V-T13: a duplicate is refused. -/
theorem test_load_sym_dup : answer (exec (.loadSym 0x61#21 9#32) loaded) = some ⟨0x0600#16, 0#64, 0#64⟩ := by decide
/-- V-T16: a full table is refused before a duplicate. -/
theorem test_load_sym_full :
    answer (exec (.loadSym 0x61#21 1#32) { loaded with params := { nMax := 3, bufMax := 16#32 } }) =
      some ⟨0x0500#16, 0#64, 0#64⟩ := by decide
/-- V-T2: a leaf comes before an internal node of the same frequency. -/
theorem test_build : (after (exec .build loaded)).map (fun t => (t.node, t.root, t.status)) =
    some (abcTree, 4#16, 0x0009#16) := by decide
/-- V-T5: a tie goes by the symbol, not by the load position. -/
theorem test_build_tie :
    (after (exec .build { State.reset with alpha := [⟨0x62#21, 1#32⟩, ⟨0x61#21, 1#32⟩] })).map (fun t => t.node) =
      some [.leaf 1#48 0x62#21, .leaf 1#48 0x61#21, .internal 2#48 0#16 1#16 0#16] := by decide
/-- V-D2. -/
theorem test_derive : (after (exec .derive built)).map (fun t => (t.code, t.status)) = some (abcCodes, 0x001A#16) := by
  decide
/-- V-D7: the single symbol. -/
theorem test_derive_one : (after (exec .derive builtOne)).map (fun t => t.code) = some [[false]] := by decide
/-- V-P12. -/
theorem test_set_bufsize : answer (exec (.setBufsize 4097#32) State.reset) = some ⟨0x0400#16, 0#64, 0#64⟩ := by decide
/-- V-P14. -/
theorem test_set_bufsize_coded : (after (exec (.setBufsize 3#32) coded)).map (fun t => (t.bufSize, t.status)) =
    some (3#32, 0x001A#16) := by decide
/-- V-P18: a symbol that is not loaded. -/
theorem test_encode_nocode : answer (exec (.encode 0x41#21) coded) = some ⟨0x881F#16, 0#64, 0#64⟩ := by decide
/-- R215, as in V-P19: the first bit of a "10" fills the buffer, the write fails, the second bit is not appended. -/
theorem test_encode_io :
    (after (exec (.encode 0x61#21) { nearlyFull with ackScript := failing })).map
      (fun t => (t.status, t.obuf, t.accN, t.bitsIn, t.writes)) = some (0x991F#16, [0x15#8], 0, 8#64, 0#64) := by decide
/-- V-P8: 01011 padded. -/
theorem test_finish : (after (exec .finish encoding)).map (fun t => (t.status, t.sink, t.bytesOut)) =
    some (0x001C#16, [⟨[0x58#8], some .ok⟩], 1#64) := by decide
/-- V-P20's shape: the final write fails; OBUF keeps the padded byte, nothing is counted. -/
theorem test_finish_io :
    (after (exec .finish { encoding with ackScript := failing })).map (fun t => (t.status, t.obuf, t.accN, t.bytesOut)) =
      some (0x991F#16, [0x58#8], 0, 0#64) := by decide
/-- V-C11: PACK_ACC. -/
theorem test_read_reg : answer (exec (.readReg 4#32) { encoding with acc := 0b101#8, accN := 3 }) =
    some ⟨0x001B#16, 0x0503#64, 0#64⟩ := by decide
/-- V-C10: register 0 shows the STATUS after the command. -/
theorem test_read_reg_status : answer (exec (.readReg 0#32) faulted) = some ⟨0x7007#16, 0x7007#64, 0#64⟩ := by decide
/-- V-T17. -/
theorem test_read_alpha : answer (exec (.readAlpha 2#32) loaded) = some ⟨0x0000#16, 2#64, 0x63#64⟩ := by decide
/-- V-T18. -/
theorem test_read_alpha_range : answer (exec (.readAlpha 0#32) State.reset) = some ⟨0x0300#16, 0#64, 0#64⟩ := by decide
/-- P2, step 7. -/
theorem test_read_node : answer (exec (.readNode 4#32) built) = some ⟨0x0009#16, 4#64, 0x8000000100020003#64⟩ := by
  decide
/-- V-T20. -/
theorem test_read_node_range : answer (exec (.readNode 5#32) built) = some ⟨0x0309#16, 0#64, 0#64⟩ := by decide
/-- V-D12. -/
theorem test_read_code : answer (exec (.readCode 0#32 0#21) coded) =
    some ⟨0x001A#16, 0x8000000000000000#64, 0x0000006100000002#64⟩ := by decide +kernel
/-- V-D15. -/
theorem test_read_code_range : answer (exec (.readCode 2#32 4#21) coded) = some ⟨0x031A#16, 0#64, 0#64⟩ := by decide

/-! ### The host and the sink -/

/-- A word placed to come next runs as the next step, and an illegal one is rejected (2.6, step 1). -/
theorem test_step_runs_word :
    (after (step (State.reset.withFetchWord 64 0x2000006100000019))).map (fun t => t.alpha) = some [⟨0x61#21, 25#32⟩] ∧
      answer (step (State.reset.withFetchWord 64 0xC000000000000000)) = some ⟨0x0100#16, 0#64, 0#64⟩ := by decide
/-- R247: a sink that never answers leaves the block waiting. -/
theorem test_silent_sink : after (exec .finish { encoding with ackScript := silent }) = none := by decide
/-- R241: the write in flight may or may not have been issued; there is no response. -/
theorem test_reset_during :
    (after (step { encoding with host := [.resetDuring 0x7000000000000000#64 [] true] })).map
      (fun t => (t.sink, t.phase, t.runResponses)) = some ([⟨[0x58#8], none⟩], .load, []) ∧
    (after (step { encoding with host := [.resetDuring 0x7000000000000000#64 [] false] })).map (fun t => t.sink) =
      some [] := by decide

/-! ### Witnesses: the tree, the code table and the invariants of concrete states -/

theorem abc_tree_wf : TreeWf abc abcTree where
  size := rfl
  leaf := by
    intro i e he
    have hi : i < 3 := (List.getElem?_eq_some_iff.1 he).1
    interval_cases i <;> (cases he; rfl)
  merge := by
    intro m hm
    have hm : m < 2 := by simp [abc] at hm; omega
    interval_cases m
    · exact ⟨2#48, 0#16, 1#16, rfl, by decide, by decide, by decide⟩
    · exact ⟨4#48, 2#16, 3#16, rfl, by decide, by decide, by decide⟩
  parent := by
    intro i hi
    have hi : i < 4 := by simp [abcTree] at hi; omega
    interval_cases i <;> decide
  rootFree := by decide

theorem abc_codes_wf : CodeWf Params.default 3 abcCodes where
  size := rfl
  len := by decide
  free := by decide

theorem reset_inv : Machine.Inv State.reset where
  alpha := ⟨by decide, by decide, by decide, by decide⟩
  phase := ⟨by decide, by decide, by decide, by decide⟩
  storage := ⟨(fun h => nomatch h), by decide, (fun h => nomatch h), by decide⟩
  pack := ⟨by decide, by decide, by decide, by decide, by decide, fun _ _ => by unfold State.countsExact; decide,
    (fun h => nomatch h), (fun h => nomatch h)⟩
  log := ⟨by decide, by decide, by decide, by decide, by decide⟩
  run := ⟨by decide, (fun _ h => nomatch h), by decide⟩

theorem built_inv : Machine.Inv built where
  alpha := ⟨by decide, by decide, by decide, by decide⟩
  phase := ⟨by decide, by decide, by decide, by decide⟩
  storage := ⟨fun _ => ⟨by decide, abc_tree_wf, by decide⟩, by decide, (fun h => nomatch h), by decide⟩
  pack := ⟨by decide, by decide, by decide, by decide, by decide, fun _ _ => by unfold State.countsExact; decide,
    (fun h => nomatch h), (fun h => nomatch h)⟩
  log := ⟨by decide, by decide, by decide, by decide, by decide⟩
  run := ⟨by decide, (fun _ h => Option.some.inj h ▸ by decide), by decide⟩

theorem coded_inv : Machine.Inv coded where
  alpha := ⟨by decide, by decide, by decide, by decide⟩
  phase := ⟨by decide, by decide, by decide, by decide⟩
  storage := ⟨fun _ => ⟨by decide, abc_tree_wf, by decide⟩, by decide, fun _ => abc_codes_wf, by decide⟩
  pack := ⟨by decide, by decide, by decide, by decide, by decide, fun _ _ => by unfold State.countsExact; decide,
    (fun h => nomatch h), (fun h => nomatch h)⟩
  log := ⟨by decide, by decide, by decide, by decide, by decide⟩
  run := ⟨by decide, (fun _ h => Option.some.inj h ▸ by decide), by decide⟩

theorem encoding_inv : Machine.Inv encoding where
  alpha := ⟨by decide, by decide, by decide, by decide⟩
  phase := ⟨by decide, by decide, by decide, by decide⟩
  storage := ⟨fun _ => ⟨by decide, abc_tree_wf, by decide⟩, by decide, fun _ => abc_codes_wf, by decide⟩
  pack := ⟨by decide, by decide, by decide, by decide, by decide, fun _ _ => by unfold State.countsExact; decide,
    (fun h => nomatch h), (fun h => nomatch h)⟩
  log := ⟨by decide, by decide, by decide, by decide, by decide⟩
  run := ⟨by decide, (fun _ h => Option.some.inj h ▸ by decide), by decide⟩

/-! ### Witnesses: for each statement with hypotheses, in the order of the statements, data that meet them

Where the statement has several clauses, each clause has data at the boundary of its range. -/

theorem witness_EncodeOfDecodeIsTheWord : ∃ (cw : Word) (i : Instr), decode cw = .ok i :=
  ⟨0xB000000400000002#64, .readCode 2#32 4#21, by decide⟩

/-- The four ways to be illegal at their edges, and the largest legal word. -/
theorem witness_IllegalWordIsRejected :
    (sendNext 0xC000000000000000#64 coded).host = .command 0xC000000000000000#64 :: [] ∧
    0xC#4 ≤ (0xC000000000000000#64).extractLsb' 60 4 ∧
    (0x0020000000000000#64).extractLsb' 53 7 ≠ 0#7 ∧
    ((0x5000000100000007#64).extractLsb' 32 21 ≠ 0#21 ∧
      (0x5000000100000007#64).extractLsb' 60 4 ∉ [0x2#4, 0x6#4, 0xB#4]) ∧
    ((0x6000006100000001#64).extractLsb' 0 32 ≠ 0#32 ∧
      (0x6000006100000001#64).extractLsb' 60 4 ∉ [0x2#4, 0x5#4, 0x8#4, 0x9#4, 0xA#4, 0xB#4]) ∧
    ¬ (0xC#4 ≤ (0xBFFFFFFFFFFFFFFF#64 &&& 0xF01FFFFFFFFFFFFF#64).extractLsb' 60 4 ∨
      (0xBFFFFFFFFFFFFFFF#64 &&& 0xF01FFFFFFFFFFFFF#64).extractLsb' 53 7 ≠ 0#7) := by decide

theorem witness_StepRunsTheDecodedCommand :
    (sendNext 0x3000000000000000#64 loaded).host = [.command 0x3000000000000000#64] ∧
      decode 0x3000000000000000#64 = .ok .build := by decide

theorem witness_StepWaitsForTheHost : loaded.host = [] := rfl

/-- A command that completes, one that is rejected and one that is fatal. -/
theorem witness_EveryCommandGivesOneResponse :
    (∃ t, step (sendNext 0x9000000000000002#64 loaded) = .next t ∧ t.lastErr = .errNone) ∧
    (∃ t, step (sendNext 0x4000000000000000#64 loaded) = .next t ∧ t.lastErr = .errPhase) ∧
    (∃ t, step (sendNext 0x3000000000000000#64 State.reset) = .next t ∧ t.lastErr = .errEmpty) :=
  ⟨⟨_, rfl, rfl⟩, ⟨_, rfl, rfl⟩, ⟨_, rfl, rfl⟩⟩

theorem witness_PhaseTableIsEnforced :
    ¬ loaded.phase = .built ∧ built.phase = .built ∧ ¬ loaded.treeValid = true ∧ built.treeValid = true ∧
      ¬ built.codesValid = true ∧ coded.codesValid = true ∧ (∃ t, exec .derive built = .next t) := by
  refine ⟨by decide, rfl, by decide, rfl, by decide, rfl, _, rfl⟩

/-- One command for each outcome of the lifecycle table that a state of the invariant can show. -/
theorem witness_PhaseMovesOnlyByTheTable :
    Machine.Inv State.reset ∧ Machine.Inv built ∧ Machine.Inv coded ∧ Machine.Inv encoding ∧
      (∃ t, exec .build State.reset = .next t) ∧ (∃ t, exec .derive built = .next t) ∧
      (∃ t, exec (.encode 0x63#21) coded = .next t) ∧ (∃ t, exec (.encode 0x41#21) coded = .next t) ∧
      (∃ t, exec .finish encoding = .next t) :=
  ⟨reset_inv, built_inv, coded_inv, encoding_inv, ⟨_, rfl⟩, ⟨_, rfl⟩, ⟨_, rfl⟩, ⟨_, rfl⟩, ⟨_, rfl⟩⟩

theorem witness_RejectChangesOnlyLastErr :
    (∃ t, exec .derive coded = .next t ∧ t.lastErr = .errPhase) ∧
    (∃ t, exec (.readAlpha 3#32) coded = .next t ∧ t.lastErr = .errRange) ∧
    (∃ t, exec (.setBufsize 0#32) coded = .next t ∧ t.lastErr = .errBufsize) ∧
    (∃ t, exec (.loadSym 0x61#21 0#32) { loaded with params := { nMax := 3, bufMax := 16#32 } } = .next t ∧
      t.lastErr = .errFull) ∧
    (∃ t, exec (.loadSym 0x61#21 0#32) loaded = .next t ∧ t.lastErr = .errDup) :=
  ⟨⟨_, rfl, rfl⟩, ⟨_, rfl, rfl⟩, ⟨_, rfl, rfl⟩, ⟨_, rfl, rfl⟩, ⟨_, rfl, rfl⟩⟩

/-- The last state is outside the invariant: its root names no node, so DERIVE's structural check fires. -/
theorem witness_FatalErrorEntersFault :
    (∃ t, exec .build State.reset = .next t ∧ t.lastErr = .errEmpty) ∧
    (∃ t, exec (.encode 0x41#21) coded = .next t ∧ t.lastErr = .errNocode) ∧
    (∃ t, exec (.encode 0x61#21) { nearlyFull with ackScript := failing } = .next t ∧ t.lastErr = .errIo) ∧
    (∃ t, exec .derive { built with root := 9#16 } = .next t ∧ t.lastErr = .errInvariant) :=
  ⟨⟨_, rfl, rfl⟩, ⟨_, rfl, rfl⟩, ⟨_, rfl, rfl⟩, ⟨_, rfl, rfl⟩⟩

theorem witness_FaultIsLeftOnlyByClear : faulted.phase = .fault ∧ Instr.build ≠ .clear := by decide

theorem witness_ReadsHaveNoEffect : isRead (.readNode 4#32) = true ∨ Instr.readNode 4#32 = .nop := by decide

theorem witness_OnlyClearResetsTheValidFlags :
    (∃ t, exec .clear coded = .next t ∧ coded.treeValid = true ∧ t.treeValid = false ∧ coded.codesValid = true ∧
      t.codesValid = false) ∧
    (∃ t, exec .build loaded = .next t ∧ loaded.treeValid = false ∧ t.treeValid = true) ∧
    (∃ t, exec .derive built = .next t ∧ built.codesValid = false ∧ t.codesValid = true) :=
  ⟨⟨_, rfl, rfl, rfl, rfl, rfl⟩, ⟨_, rfl, rfl, rfl⟩, ⟨_, rfl, rfl, rfl⟩⟩

theorem witness_TreeAndCodesAreImmutable :
    PhaseInv coded ∧ (∃ t, exec (.encode 0x63#21) coded = .next t) ∧ Instr.encode 0x63#21 ≠ .clear ∧
      coded.treeValid = true ∧ coded.codesValid = true :=
  ⟨coded_inv.phase, ⟨_, rfl⟩, by decide, rfl, rfl⟩

theorem witness_ResetInputGivesTheResetState : ({ encoding with host := [.reset] } : State).host = [.reset] := rfl

/-- FINISH abandoned: with its write answered, with it in flight, with it not issued; and a NOP, which issues none. -/
theorem witness_ResetDuringKeepsTheIssuedWrites :
    let finish := 0x7000000000000000#64
    let run (cw : Word) (acks : List Ack) :=
      runWord cw { encoding with host := [], ackScript := { acks := acks, thereafter := .silent } }
    ({ encoding with host := [.resetDuring finish [.ok] true] } : State).host = [.resetDuring finish [.ok] true] ∧
      (∃ t, run finish [.ok] = .next t ∧ t.sink = [⟨[0x58#8], some .ok⟩]) ∧
      (∃ t, run finish [] = .fault (.sinkSilent t) ∧ t.sink = [] ∧ t.obuf = [0x58#8]) ∧
      (∃ t, run 0#64 [.ok] = .next t ∧ t.sink = []) :=
  ⟨rfl, ⟨_, rfl, rfl⟩, ⟨_, rfl, rfl, rfl⟩, ⟨_, rfl, rfl⟩⟩

/-- The three clauses of LOAD_SYM, the last at N = N_MAX - 1. -/
theorem witness_LoadSymAppendsTheEntry :
    loaded.phase = .load ∧ ({ loaded with params := { nMax := 3, bufMax := 16#32 } } : State).n = 3 ∧
      loaded.n ≠ loaded.params.nMax ∧ (∃ e ∈ loaded.alpha, e.sym = 0x61#21) ∧
      ({ loaded with params := { nMax := 4, bufMax := 16#32 } } : State).n = 4 - 1 ∧
      (∀ e ∈ loaded.alpha, e.sym ≠ 0x64#21) := by decide

theorem witness_ReadAlphaReturnsTheEntry :
    (2#32).toNat < loaded.alpha.length ∧ loaded.alpha.length ≤ (3#32).toNat := by decide

theorem witness_BeforeIsAStrictTotalOrder :
    (0x61#21 ≠ 0x62#21 ∧ 0#16 ≠ 1#16) ∧ before (.leaf 1#48 0x61#21) (.leaf 1#48 0x62#21) = true ∧
      before (.leaf 1#48 0x62#21) (.internal 1#48 0#16 0#16 1#16) = true := by decide

theorem witness_BuildOfNothingIsFatal : State.reset.phase = .load ∧ State.reset.n = 0 := by decide

/-- The smallest alphabet, V-T2's, and the largest that the 16-bit node indices hold. -/
theorem witness_BuildMakesTheTree :
    ({ loaded with alpha := [⟨0x7A#21, 5#32⟩] } : State).n = 1 ∧ loaded.phase = .load ∧ loaded.n = 3 ∧
      ({ loaded with alpha := List.replicate 32768 ⟨0x61#21, 1#32⟩ } : State).n = 32768 :=
  ⟨rfl, rfl, rfl, List.length_replicate⟩

/-- The first merge and the last. -/
theorem witness_EachMergeTakesTheTwoFirst :
    loaded.phase = .load ∧ loaded.n = 3 ∧ (loaded.alpha.map AlphaEntry.sym).Nodup ∧ (∃ t, exec .build loaded = .next t) ∧
      0 + 1 < loaded.n ∧ 1 + 1 < loaded.n :=
  ⟨rfl, rfl, by decide, ⟨_, rfl⟩, by decide, by decide⟩

theorem witness_RootHoldsTheTotal : loaded.phase = .load ∧ loaded.n = 3 ∧ ∃ t, exec .build loaded = .next t :=
  ⟨rfl, rfl, _, rfl⟩

theorem witness_LoadOrderDoesNotShapeTheTree :
    loaded.phase = .load ∧ loaded.n = 3 ∧ (loaded.alpha.map AlphaEntry.sym).Nodup ∧ loaded.alpha.Perm abc.reverse ∧
      (∃ t, exec .build loaded = .next t) ∧ ∃ t', exec .build { loaded with alpha := abc.reverse } = .next t' :=
  ⟨rfl, rfl, by decide, (List.reverse_perm abc).symm, ⟨_, rfl⟩, ⟨_, rfl⟩⟩

/-- A leaf, the root at 2N - 2, and the first index out of range. -/
theorem witness_ReadNodeReturnsTheNode :
    built.treeValid = true ∧ (0#32).toNat < 2 * built.n - 1 ∧ built.node[0]? = some (Node.leaf 1#48 0x61#21) ∧
      (4#32).toNat = 2 * built.n - 2 ∧ built.node[4]? = some (Node.internal 4#48 1#16 2#16 3#16) ∧
      2 * built.n - 1 ≤ (5#32).toNat := by decide

theorem witness_DeriveOfOneSymbol : builtOne.phase = .built ∧ builtOne.n = 1 := by decide

theorem witness_DeriveGivesThePaths :
    built.phase = .built ∧ 2 ≤ built.n ∧ TreeWf built.alpha built.node ∧ built.root.toNat = 2 * built.n - 2 ∧
      2 < built.n :=
  ⟨rfl, by decide, abc_tree_wf, rfl, by decide⟩

theorem witness_CodesArePrefixFree :
    built.phase = .built ∧ 2 ≤ built.n ∧ TreeWf built.alpha built.node ∧ built.root.toNat = 2 * built.n - 2 ∧
      ∃ t, exec .derive built = .next t :=
  ⟨rfl, by decide, abc_tree_wf, rfl, _, rfl⟩

theorem witness_KraftSumIsOne :
    built.phase = .built ∧ 2 ≤ built.n ∧ TreeWf built.alpha built.node ∧ built.root.toNat = 2 * built.n - 2 ∧
      ∃ t, exec .derive built = .next t :=
  ⟨rfl, by decide, abc_tree_wf, rfl, _, rfl⟩

/-- k = N - 1 with w = W_MAX - 1, then k = N, then w = W_MAX (4 with the default parameters). -/
theorem witness_ReadCodeReturnsTheCode :
    coded.codesValid = true ∧ coded.alpha[(2#32).toNat]? = some ⟨0x63#21, 2#32⟩ ∧
      coded.code[(2#32).toNat]? = some [false] ∧ (3#21).toNat < (max 1 (coded.params.nMax - 1) + 63) / 64 ∧
      coded.n ≤ (3#32).toNat ∧ (max 1 (coded.params.nMax - 1) + 63) / 64 ≤ (4#21).toNat := by decide

theorem witness_SetBufsizeSetsTheSize :
    coded.phase = .coded ∧ 1 ≤ (1#32).toNat ∧ (4096#32).toNat ≤ coded.params.bufMax.toNat ∧ (0#32).toNat = 0 ∧
      coded.params.bufMax.toNat < (4097#32).toNat := by decide

/-- Each clause at its boundary, ACC_N = 0, 6 and 7. -/
theorem witness_AppendBitIsTheStatedPacking :
    coded.accN.val = 0 ∧ ({ encoding with acc := 0b010110#8, accN := 6 } : State).accN.val = 6 ∧
      nearlyFull.accN.val = 7 := by decide

theorem witness_FlushBufWritesTheBuffer :
    nearlyFull.ackScript.answer = some (.ok, nearlyFull.ackScript) ∧ failing.answer = some (.fail, failing) ∧
      silent.answer = none := by decide

theorem witness_EncodeAppendsTheCode :
    encoding.phase = .encoding ∧ (encoding.alpha.map AlphaEntry.sym).Nodup ∧
      encoding.alpha[2]? = some ⟨0x63#21, 2#32⟩ ∧ encoding.code[2]? = some [false] ∧
      encoding.ackScript.allOk = true ∧ encoding.runStart ≤ encoding.sink.length := by decide

theorem witness_EncodeOfAnUnloadedSymbolIsFatal :
    coded.phase = .coded ∧ ∀ e ∈ coded.alpha, e.sym ≠ 0x41#21 := by decide

theorem witness_EncodeStopsAtTheFailedWrite :
    nearlyFull.phase = .encoding ∧ (nearlyFull.alpha.map AlphaEntry.sym).Nodup ∧
      nearlyFull.alpha[0]? = some ⟨0x61#21, 1#32⟩ ∧ nearlyFull.code[0]? = some [true, false] ∧
      nearlyFull.runStart ≤ nearlyFull.sink.length ∧ nearlyFull.obuf.length < nearlyFull.bufSize.toNat ∧
      ∃ t, exec (.encode 0x61#21) { nearlyFull with ackScript := failing } = .next t ∧ t.lastErr = .errIo :=
  ⟨rfl, by decide, rfl, rfl, by decide, by decide, _, rfl, rfl⟩

theorem witness_EncodeFaultsWhenTheWriteFails :
    nearlyFull.phase = .encoding ∧ (nearlyFull.alpha.map AlphaEntry.sym).Nodup ∧
      nearlyFull.alpha[2]? = some ⟨0x63#21, 2#32⟩ ∧ nearlyFull.code[2]? = some [false] ∧
      nearlyFull.obuf.length + 1 = nearlyFull.bufSize.toNat ∧ 8 ≤ nearlyFull.accN.val + [false].length ∧
      ({ nearlyFull with ackScript := failing } : State).ackScript.answer = some (.fail, failing) := by decide

/-- Nothing to write; a partial byte to write; whole bytes only to write; with each of the three answers. -/
theorem witness_FinishWritesWhatRemains :
    (coded.phase = .coded ∧ coded.accN.val = 0 ∧ coded.obuf = []) ∧
    (encoding.phase = .encoding ∧ encoding.accN.val ≠ 0 ∧ encoding.obuf = []) ∧
    (let whole : State := { encoding with acc := 0#8, accN := 0, obuf := [0x58#8], bitsIn := 8#64 }
     whole.phase = .encoding ∧ whole.accN.val = 0 ∧ whole.obuf ≠ []) ∧
    encoding.ackScript.answer = some (.ok, encoding.ackScript) ∧ failing.answer = some (.fail, failing) ∧
    silent.answer = none := by decide

theorem witness_FinishOutputIsThePaddedStream :
    encoding.phase = .encoding ∧ encoding.runStart ≤ encoding.sink.length ∧
      ∃ t, exec .finish encoding = .next t ∧ t.phase = .done :=
  ⟨rfl, by decide, _, rfl, rfl⟩

theorem witness_WritesAreWholeBuffers :
    nearlyFull.obuf.length < nearlyFull.bufSize.toNat ∧ nearlyFull.phase = .encoding ∧
      (∃ t, exec (.encode 0x61#21) nearlyFull = .next t ∧ (t.accN = 1) = true) ∧
      ∃ t, exec .finish nearlyFull = .next t ∧ (t.accN = 0) = true := by
  refine ⟨by decide, rfl, ?_, ?_⟩
  · simpa using exists_after (p := fun t => t.accN = 1) (by decide : (after (exec (.encode 0x61#21) nearlyFull)).any _ = true)
  · simpa using exists_after (p := fun t => t.accN = 0) (by decide : (after (exec .finish nearlyFull)).any _ = true)

/-- FINISH ends the run in DONE, ENCODE of an unloaded symbol in FAULT, ENCODE of a loaded one leaves it unfinished. -/
theorem witness_SuccessMeansTheSinkHoldsTheOutput :
    Machine.Inv (sendNext 0x7000000000000000#64 encoding) ∧
    (∃ t, step (sendNext 0x7000000000000000#64 encoding) = .next t ∧ t.runSucceeded = true ∧
      SinkMayHold t.runWrites [0x58#8]) ∧
    Machine.Inv (sendNext 0x6000004100000000#64 encoding) ∧
    (∃ t, step (sendNext 0x6000004100000000#64 encoding) = .next t ∧ t.runFailed = true) ∧
    Machine.Inv (sendNext 0x6000006300000000#64 encoding) ∧
    (∃ t, step (sendNext 0x6000006300000000#64 encoding) = .next t ∧ t.runSucceeded = false ∧ t.runFailed = false) := by
  refine ⟨encoding_inv.with_host _, ⟨_, rfl, by decide, ?_, ?_⟩, encoding_inv.with_host _, ⟨_, rfl, by decide⟩,
    encoding_inv.with_host _, ⟨_, rfl, by decide, by decide⟩⟩
  · exact ⟨[], by decide⟩
  · intro _; decide

/-- A reset after DONE begins a run that has not succeeded, although the response before it showed DONE. -/
theorem test_reset_ends_success :
    (after (step { encoding with
      phase := .done, host := [.reset], responses := [⟨0x001C#16, 0#64, 0#64⟩], pos := 1 })).map
        (fun t => (t.runSucceeded, t.runFailed, t.responses.length)) = some (false, false, 1) := by decide

theorem cab_loaded : ∀ sym ∈ [0x63#21, 0x61#21, 0x62#21], ∃ e ∈ coded.alpha, e.sym = sym := by
  simp [coded, built, loaded, abc]

/-- BUF_SIZE 1 and BUF_MAX, and the text "cab". -/
theorem witness_BufferSizeDoesNotChangeTheOutput :
    Machine.Inv coded ∧ coded.phase = .coded ∧ coded.ackScript.allOk = true ∧
      (1#32 ≤ 1#32 ∧ 1#32 ≤ coded.params.bufMax ∧ coded.params.bufMax ≤ coded.params.bufMax) ∧
      ∀ sym ∈ [0x63#21, 0x61#21, 0x62#21], ∃ e ∈ coded.alpha, e.sym = sym :=
  ⟨coded_inv, rfl, by decide, by decide, cab_loaded⟩

/-- The same text. -/
theorem witness_WriteLengthsAreTheChunks :
    Machine.Inv coded ∧ coded.phase = .coded ∧ coded.ackScript.allOk = true ∧
      ∀ sym ∈ [0x63#21, 0x61#21, 0x62#21], ∃ e ∈ coded.alpha, e.sym = sym :=
  ⟨coded_inv, rfl, by decide, cab_loaded⟩

theorem witness_InvariantHoldsAtReset :
    (Params.mk 1 1#32).wf = true ∧ (Params.mk 32768 0xFFFFFFFF#32).wf = true := by decide

theorem witness_EveryStepKeepsTheInvariant : Machine.Inv encoding ∧ ∃ t, step encoding = .next t :=
  ⟨encoding_inv, _, rfl⟩

theorem witness_StructuralChecksNeverFire : Machine.Inv built ∧ ∃ t, exec .derive built = .next t :=
  ⟨built_inv, _, rfl⟩

end Sys2Proof.Tests
end

/-! PROOFS. The state between commands (10_state.md R20 to R43).  The invariant is kept command by command: `BodyDone`
and `BodyFatal` (Laws/Exec.lean) list the states that a body can end in, and one lemma for each says why the invariant
holds once the command has answered.  What packing may change is taken from `PackStep` and `Issues` (Laws/Packing.lean,
Laws/Sink.lean). -/

namespace Sys2Proof.Machine

/-! ### STATUS, the register map and the reset state -/

/-- Settles O11: each field of STATUS is the part of the concatenation at its place. -/
theorem statusLayout : Obligations.StatusLayout := by
  intro s
  refine ⟨?_, status_treeValid s, status_codesValid s, status_reserved s, ?_, ?_⟩
  · rw [status_phase]; rfl
  · rw [status_lastErr]; rfl
  · rw [status_faultCause]; rfl

theorem packAcc_eq_ofNat (s : State) : packAcc s = BitVec.ofNat 64 (256 * s.acc.toNat + s.accN.val) := by
  rw [← packAcc_toNat, BitVec.ofNat_toNat, BitVec.setWidth_eq]

theorem readRegister_eq_none {reg : Val} (s : State) (h : 11 ≤ reg.toNat) : readRegister reg s = none := by
  unfold readRegister
  split
  case h_12 => rfl
  all_goals omega

/-- READ_REG completes with the register that the number names, and rejects a number that names none (R114). -/
theorem exec_readReg (reg : Val) (s : State) : exec (.readReg reg) s = .next
    ((readRegister reg { s with lastErr := .errNone }).elim (s.takeReject .errRange) (s.complete · 0#64)) := by
  rw [exec_of_legal rfl]
  simp only [bodyOf, bodyReadReg]
  cases readRegister reg { s with lastErr := .errNone } <;> rfl

/-- Settles O25: number by number up to 10, and no register from 11 on. -/
theorem readRegReturnsTheRegister : Obligations.ReadRegReturnsTheRegister := by
  intro s reg
  rw [exec_readReg, ← packAcc_eq_ofNat]
  by_cases h : reg.toNat < 11
  · obtain ⟨k, hk, rfl⟩ : ∃ k < 11, reg = BitVec.ofNat 32 k := ⟨_, h, by simp⟩
    clear h
    interval_cases k <;> rfl
  · have hne : ∀ k < 11, reg ≠ BitVec.ofNat 32 k := by
      rintro k hk rfl
      exact h (by simp; omega)
    rw [readRegister_eq_none _ (by omega)]
    simp [hne]

theorem State.clearBlock_resetWith (p : Params) : (State.resetWith p).clearBlock = State.resetWith p := rfl

/-- Settles O20: R42's values are those that `State.resetWith` is made of, and STATUS of them is 0. -/
theorem resetState : Obligations.ResetState := by
  intro p
  refine ⟨rfl, rfl, rfl, rfl, rfl, rfl, rfl, rfl, rfl, rfl, rfl, rfl, rfl, rfl, rfl, rfl, rfl, ?_, rfl⟩
  exact (State.resetWith p).clearBlock_status

/-- Settles O21: CLEAR is legal in every phase, its body is R42's reset, and it answers the STATUS of reset. -/
theorem clearGivesTheResetState : Obligations.ClearGivesTheResetState := by
  intro s
  rw [exec_of_legal rfl]
  show Host.Outcome.next { s.clearBlock with
    responses := s.responses ++ [Response.mk s.clearBlock.status 0#64 0#64], pos := s.pos + 1 } = _
  rw [State.clearBlock_status]
  rfl

/-! ### The frames of ENCODE and FINISH -/

theorem padLastByte_packStep (s : State) : PackStep s (padLastByte s) :=
  ⟨padLastByte_same s, [], by simp [okBytes, okCount]⟩

/-- The packing of ENCODE keeps what packing keeps, whichever way it ends. -/
theorem PackStep.of_appendBits {s : State} {c : Code} {r : PackResult} (h : appendBits s c = r) : PackStep s r.state :=
  h ▸ appendBits_packStep c s

/-- And so does the packing of FINISH. -/
theorem PackStep.of_finish {s : State} {r : PackResult} (h : flushRest (padLastByte s) = r) : PackStep s r.state :=
  h ▸ (padLastByte_packStep s).trans (flushRest_packStep (padLastByte s))

/-! ### The valid flags, the tree and the code table (R25, R41) -/

/-- Which body writes which valid flag: CLEAR both, BUILD and DERIVE one each, the others none (R25). -/
theorem BodyDone.flags {i : Instr} {s u : State} {d0 d1 : Word} (h : BodyDone s i u d0 d1) :
    (i = .clear ∧ u.treeValid = false ∧ u.codesValid = false) ∨
    (i = .build ∧ u.treeValid = true ∧ u.codesValid = s.codesValid) ∨
    (i = .derive ∧ u.treeValid = s.treeValid ∧ u.codesValid = true) ∨
    ((i ≠ .build ∧ i ≠ .derive) ∧ u.treeValid = s.treeValid ∧ u.codesValid = s.codesValid) := by
  cases h with
  | clear => exact .inl ⟨rfl, rfl, rfl⟩
  | build => exact .inr (.inl ⟨rfl, rfl, rfl⟩)
  | derive => exact .inr (.inr (.inl ⟨rfl, rfl, rfl⟩))
  | read hr => exact .inr (.inr (.inr ⟨⟨(by rintro rfl; cases hr), (by rintro rfl; cases hr)⟩, rfl, rfl⟩))
  | encode _ h =>
    have same := (PackStep.of_appendBits h).same
    exact .inr (.inr (.inr ⟨⟨nofun, nofun⟩, same.treeValid, same.codesValid⟩))
  | finish h =>
    have same := (PackStep.of_finish h).same
    exact .inr (.inr (.inr ⟨⟨nofun, nofun⟩, same.treeValid, same.codesValid⟩))
  | nop | loadSym | setBufsize => exact .inr (.inr (.inr ⟨⟨nofun, nofun⟩, rfl, rfl⟩))

/-- A fatal error writes no valid flag (R212, R215). -/
theorem BodyFatal.flags {i : Instr} {s u : State} {e : ErrCode} (h : BodyFatal s i e u) :
    u.treeValid = s.treeValid ∧ u.codesValid = s.codesValid := by
  cases h with
  | encodeIo _ h => exact ⟨(PackStep.of_appendBits h).same.treeValid, (PackStep.of_appendBits h).same.codesValid⟩
  | finishIo h => exact ⟨(PackStep.of_finish h).same.treeValid, (PackStep.of_finish h).same.codesValid⟩
  | empty | tree | codes | nocode => exact ⟨rfl, rfl⟩

theorem BodyReject.error_ne_none {i : Instr} {s : State} {e : ErrCode} (h : BodyReject s i e) : e ≠ .errNone := by
  cases h <;> exact nofun

theorem BodyFatal.error_ne_none {i : Instr} {s u : State} {e : ErrCode} (h : BodyFatal s i e u) : e ≠ .errNone := by
  cases h <;> exact nofun

/-- What a command does to the valid flags: it writes them as its body does, or it ends in an error and leaves them. -/
theorem exec_flags {i : Instr} {s t : State} (h : exec i s = .next t) :
    (t.lastErr = .errNone ∧ legal i s = true ∧ ∃ u d0 d1, BodyDone s i u d0 d1 ∧
      t.treeValid = u.treeValid ∧ t.codesValid = u.codesValid) ∨
    (t.lastErr ≠ .errNone ∧ t.treeValid = s.treeValid ∧ t.codesValid = s.codesValid) := by
  rcases exec_cases h with ⟨-, rfl⟩ | ⟨hl, ⟨u, d0, d1, hb, rfl⟩ | ⟨e, hb, rfl⟩ | ⟨e, u, hb, rfl⟩⟩
  · exact .inr ⟨nofun, rfl, rfl⟩
  · exact .inl ⟨rfl, hl, u, d0, d1, body_done hb, rfl, rfl⟩
  · exact .inr ⟨(body_reject hb).error_ne_none, rfl, rfl⟩
  · exact .inr ⟨(body_fatal hb).error_ne_none, (body_fatal hb).flags⟩

/-- Settles O18, by what a body does to the flags: an error leaves both. -/
theorem onlyClearResetsTheValidFlags : Obligations.OnlyClearResetsTheValidFlags := by
  intro i s t h
  rcases exec_flags h with ⟨he, hl, u, d0, d1, hu, ht, hc⟩ | ⟨he, ht, hc⟩
  · rw [ht, hc]
    rcases hu.flags with ⟨rfl, hut, huc⟩ | ⟨rfl, hut, huc⟩ | ⟨rfl, hut, huc⟩ | ⟨hi, hut, huc⟩
    · simp [hut, huc]
    · have hp : s.phase = .load := (legal_iff .build s).1 hl
      simp +contextual [hut, huc, hp, he]
    · have hp : s.phase = .built := (legal_iff .derive s).1 hl
      simp +contextual [hut, huc, hp, he]
    · simp +contextual [hut, huc, hi]
  · simp +contextual [ht, hc, he]

theorem PhaseInv.not_load_of_treeValid {s : State} (h : PhaseInv s) (ht : s.treeValid = true) : s.phase ≠ .load := by
  intro hp
  rcases h.tree.1 ht with hb | hc
  · simp [hp] at hb
  · simpa [hp] using h.codes.1 hc

theorem PhaseInv.not_built_of_codesValid {s : State} (h : PhaseInv s) (hc : s.codesValid = true) :
    s.phase ≠ .built := by
  intro hp
  simpa [hp] using h.codes.1 hc

/-- Which body writes ALPHA, NODE and ROOT: CLEAR, and LOAD_SYM and BUILD, which are legal in LOAD only. -/
theorem BodyDone.tree_same {i : Instr} {s u : State} {d0 d1 : Word} (h : BodyDone s i u d0 d1)
    (hl : legal i s = true) (hi : i ≠ .clear) (hp : s.phase ≠ .load) :
    u.alpha = s.alpha ∧ u.node = s.node ∧ u.root = s.root := by
  cases h with
  | clear => exact absurd rfl hi
  | loadSym | build => exact absurd ((legal_iff _ s).1 hl) hp
  | encode _ h =>
    have same := (PackStep.of_appendBits h).same
    exact ⟨same.alpha, same.node, same.root⟩
  | finish h =>
    have same := (PackStep.of_finish h).same
    exact ⟨same.alpha, same.node, same.root⟩
  | read | nop | derive | setBufsize => exact ⟨rfl, rfl, rfl⟩

/-- Which body writes CODE: CLEAR, and DERIVE, which is legal in BUILT only. -/
theorem BodyDone.code_same {i : Instr} {s u : State} {d0 d1 : Word} (h : BodyDone s i u d0 d1)
    (hl : legal i s = true) (hi : i ≠ .clear) (hp : s.phase ≠ .built) : u.code = s.code := by
  cases h with
  | clear => exact absurd rfl hi
  | derive => exact absurd ((legal_iff .derive s).1 hl) hp
  | encode _ h => exact (PackStep.of_appendBits h).same.code
  | finish h => exact (PackStep.of_finish h).same.code
  | read | nop | loadSym | build | setBufsize => rfl

/-- A BUILD that fails its check has written NODE; no other fatal error writes ALPHA, NODE or ROOT. -/
theorem BodyFatal.tree_same {i : Instr} {s u : State} {e : ErrCode} (h : BodyFatal s i e u) (hl : legal i s = true)
    (hp : s.phase ≠ .load) : u.alpha = s.alpha ∧ u.node = s.node ∧ u.root = s.root := by
  cases h with
  | tree => exact absurd ((legal_iff .build s).1 hl) hp
  | encodeIo _ h =>
    have same := (PackStep.of_appendBits h).same
    exact ⟨same.alpha, same.node, same.root⟩
  | finishIo h =>
    have same := (PackStep.of_finish h).same
    exact ⟨same.alpha, same.node, same.root⟩
  | empty | codes | nocode => exact ⟨rfl, rfl, rfl⟩

/-- A DERIVE that fails its check has written CODE; no other fatal error writes it. -/
theorem BodyFatal.code_same {i : Instr} {s u : State} {e : ErrCode} (h : BodyFatal s i e u) (hl : legal i s = true)
    (hp : s.phase ≠ .built) : u.code = s.code := by
  cases h with
  | codes => exact absurd ((legal_iff .derive s).1 hl) hp
  | encodeIo _ h => exact (PackStep.of_appendBits h).same.code
  | finishIo h => exact (PackStep.of_finish h).same.code
  | empty | tree | nocode => rfl

/-- Settles O19: with a valid tree the phase is not LOAD, with a valid code table it is not BUILT, and there no command
but CLEAR writes what is valid. -/
theorem treeAndCodesAreImmutable : Obligations.TreeAndCodesAreImmutable := by
  intro i s t hs h hi
  rcases exec_cases h with ⟨-, rfl⟩ | ⟨hl, ⟨u, d0, d1, hb, rfl⟩ | ⟨e, -, rfl⟩ | ⟨e, u, hb, rfl⟩⟩
  · exact ⟨fun _ => ⟨rfl, rfl, rfl⟩, fun _ => rfl⟩
  · exact ⟨fun ht => (body_done hb).tree_same hl hi (hs.not_load_of_treeValid ht),
      fun hc => (body_done hb).code_same hl hi (hs.not_built_of_codesValid hc)⟩
  · exact ⟨fun _ => ⟨rfl, rfl, rfl⟩, fun _ => rfl⟩
  · exact ⟨fun ht => (body_fatal hb).tree_same hl (hs.not_load_of_treeValid ht),
      fun hc => (body_fatal hb).code_same hl (hs.not_built_of_codesValid hc)⟩

/-! ### What packing keeps of the invariant, part by part -/

theorem AlphaInv.same {s t : State} (h : AlphaInv s) (p : SameOutsidePacker s t) : AlphaInv t where
  params := by rw [p.params]; exact h.params
  fits := by rw [State.n, p.alpha, p.params]; exact h.fits
  distinct := by rw [p.alpha]; exact h.distinct
  bufSize := by rw [p.bufSize, p.params]; exact h.bufSize

theorem PhaseInv.same {s t : State} (h : PhaseInv s) (p : SameOutsidePacker s t) : PhaseInv t where
  codes := by rw [p.codesValid, p.phase, p.faultCause]; exact h.codes
  tree := by rw [p.treeValid, p.codesValid, p.phase]; exact h.tree
  cause := by rw [p.faultCause, p.phase]; exact h.cause
  causes := by rw [p.faultCause, p.phase]; exact h.causes

theorem StorageInv.same {s t : State} (h : StorageInv s) (p : SameOutsidePacker s t) : StorageInv t where
  tree := by rw [p.treeValid, State.n, p.alpha, p.node, p.root]; exact h.tree
  noTree := by rw [p.treeValid, p.node, p.root]; exact h.noTree
  codes := by rw [p.codesValid, State.n, p.alpha, p.params, p.code]; exact h.codes
  noCodes := by rw [p.codesValid, p.code]; exact h.noCodes

/-- The log's part of the invariant, without the answers of the writes. -/
structure LogCounts (s : State) : Prop where
  run : s.runStart ≤ s.sink.length
  bytes : s.bytesOut = BitVec.ofNat 64 s.output.length
  writes : s.writes = BitVec.ofNat 64 (okCount s.runWrites)
  responses : s.pos = s.responses.length

theorem logInv_iff {s : State} :
    LogInv s ↔ LogCounts s ∧ (s.phase ≠ .fault → ∀ w ∈ s.runWrites, w.ack = some .ok) :=
  ⟨fun h => ⟨⟨h.run, h.bytes, h.writes, h.responses⟩, h.clean⟩,
    fun ⟨h, clean⟩ => ⟨h.run, clean, h.bytes, h.writes, h.responses⟩⟩

/-- Packing counts what it writes (R36). -/
theorem LogCounts.packStep {s t : State} (h : LogCounts s) (p : PackStep s t) : LogCounts t := by
  obtain ⟨new, hn, hb, hw⟩ := p.grows
  obtain ⟨hrun, hout⟩ := output_of_sink h.run p.same.runStart hn
  refine ⟨p.run h.run, ?_, ?_, ?_⟩
  · rw [hb, h.bytes, hout, List.length_append, BitVec.ofNat_add]
  · rw [hw, h.writes, hrun, okCount_append, BitVec.ofNat_add]
  · rw [p.same.pos, p.same.responses, h.responses]

/-- Packing that goes on has had each of its writes answered OK (R183). -/
theorem LogInv.issues {s t : State} {new : List SinkWrite} {xs : List Ack} (h : LogInv s) (p : PackStep s t)
    (w : Issues s (.ok t) new xs) : LogInv t := by
  have hc := (logInv_iff.1 h).1
  refine logInv_iff.2 ⟨hc.packStep p, ?_⟩
  rw [p.same.phase, (output_of_sink hc.run p.same.runStart w.sink).1]
  intro hp v hv
  rcases List.mem_append.1 hv with hv | hv
  · exact h.clean hp v hv
  · exact w.outcome v hv

/-- The packer of a run that has encoded nothing yet (R36, R43 item 6). -/
theorem PackInv.unstarted {t : State} (hp : t.phase = .load ∨ t.phase = .built ∨ t.phase = .coded)
    (hb : 1#32 ≤ t.bufSize) (hacc : t.acc.toNat < 2 ^ t.accN.val)
    (h : t.accN = 0 ∧ t.obuf = [] ∧ t.bitsIn = 0#64 ∧ t.bytesOut = 0#64 ∧ t.writes = 0#64 ∧ t.runWrites = []) :
    PackInv t := by
  have ⟨accN, obuf, bitsIn, bytesOut, _, _⟩ := h
  have hb : 1 ≤ t.bufSize.toNat := by simpa [BitVec.le_def] using hb
  have hd : t.phase ≠ .done := by rintro e; simp [e] at hp
  have hf : t.phase ≠ .fault := by rintro e; simp [e] at hp
  exact
    { acc := hacc
      room := fun _ => by simp [obuf]; omega
      full := by simp [obuf]
      unused := fun _ => h
      done := fun _ => ⟨accN, obuf⟩
      counted := fun _ _ => by simp [State.countsExact, accN, obuf, bitsIn, bytesOut]
      padded := fun e => absurd e hd
      fault := fun e => absurd e hf }

/-! ### The ends of a command (R110, R211) and CLEAR -/

/-- The invariant does not look at LAST_ERR, and a response moves the position with it (R39, R63). -/
theorem BlockInv.respond {s : State} (h : BlockInv s) (e : ErrCode) (d0 d1 : Word) :
    BlockInv ({ s with lastErr := e }.respond d0 d1) where
  alpha := ⟨h.alpha.params, h.alpha.fits, h.alpha.distinct, h.alpha.bufSize⟩
  phase := ⟨h.phase.codes, h.phase.tree, h.phase.cause, h.phase.causes⟩
  storage := ⟨h.storage.tree, h.storage.noTree, h.storage.codes, h.storage.noCodes⟩
  pack :=
    ⟨h.pack.acc, h.pack.room, h.pack.full, h.pack.unused, h.pack.done, h.pack.counted, h.pack.padded, h.pack.fault⟩
  log := ⟨h.log.run, h.log.clean, h.log.bytes, h.log.writes, by simp [h.log.responses]⟩

/-- Reset and CLEAR give a state that meets the invariant, whatever the state before (R42). -/
theorem BlockInv.clearBlock {s : State} (params : s.params.wf = true) (responses : s.pos = s.responses.length) :
    BlockInv s.clearBlock := by
  have hb : 1#32 ≤ s.params.bufMax := by simp [Params.wf] at params; exact params.2
  have hw : s.clearBlock.runWrites = [] := by simp [State.runWrites]
  exact
    { alpha := ⟨params, Nat.zero_le _, List.nodup_nil, hb, BitVec.le_refl _⟩
      phase := by constructor <;> simp
      storage := by constructor <;> simp
      pack := .unstarted (.inl rfl) hb (by simp) ⟨rfl, rfl, rfl, rfl, rfl, hw⟩
      log := ⟨by simp, by simp [hw], by simp [State.output, hw, okBytes], by simp [hw, okCount], responses⟩ }

/-! ### Commands that only fill the storage: LOAD_SYM, BUILD, DERIVE, SET_BUFSIZE -/

/-- The node indices fit in 16 bits (R5, R27). -/
theorem AlphaInv.n_le {s : State} (h : AlphaInv s) : s.n ≤ 32768 := by
  have hp := h.params
  simp only [Params.wf, Bool.and_eq_true, decide_eq_true_eq] at hp
  exact h.fits.trans hp.1.2

theorem PhaseInv.faultCause_eq_none {s : State} (h : PhaseInv s) (hp : s.phase ≠ .fault) :
    s.faultCause = .errNone :=
  not_not.1 fun hc => hp (h.cause.1 hc)

theorem PhaseInv.codesValid_of_phase {s : State} (h : PhaseInv s) (hp : s.phase = .coded ∨ s.phase = .encoding) :
    s.codesValid = true :=
  h.codes.2 (hp.elim .inl fun hp => .inr (.inl hp))

theorem PhaseInv.codesValid_eq_false {s : State} (h : PhaseInv s) (hp : s.phase = .load ∨ s.phase = .built) :
    s.codesValid = false := by
  rw [← Bool.not_eq_true, h.codes]
  rcases hp with hp | hp <;> simp [hp]

theorem PhaseInv.treeValid_eq_false {s : State} (h : PhaseInv s) (hp : s.phase = .load) : s.treeValid = false := by
  rw [← Bool.not_eq_true, h.tree, h.codesValid_eq_false (.inl hp)]
  simp [hp]

theorem BlockInv.loadSym {s : State} {sym : Sym} {freq : Freq} (h : BlockInv s) (hp : s.phase = .load)
    (room : s.n ≠ s.params.nMax) (fresh : ∀ e ∈ s.alpha, e.sym ≠ sym) :
    BlockInv { s with alpha := s.alpha ++ [⟨sym, freq⟩] } where
  alpha :=
    { params := h.alpha.params
      fits := by
        have := h.alpha.fits
        simp only [State.n, List.length_append, List.length_singleton] at *
        omega
      distinct := by
        rw [List.map_append, List.nodup_append]
        exact ⟨h.alpha.distinct, List.nodup_singleton _, by simpa using fresh⟩
      bufSize := h.alpha.bufSize }
  phase := ⟨h.phase.codes, h.phase.tree, h.phase.cause, h.phase.causes⟩
  storage :=
    { tree := fun ht => by simp [h.phase.treeValid_eq_false hp] at ht
      noTree := h.storage.noTree
      codes := fun hc => by simp [h.phase.codesValid_eq_false (.inl hp)] at hc
      noCodes := h.storage.noCodes }
  pack := .unstarted (.inl hp) h.alpha.bufSize.1 h.pack.acc (h.pack.unused (.inl hp))
  log := ⟨h.log.run, h.log.clean, h.log.bytes, h.log.writes, h.log.responses⟩

theorem BlockInv.build {s : State} {nodes : List Node} (h : BlockInv s) (hp : s.phase = .load) (h1 : 1 ≤ s.n)
    (hb : buildNodes s.alpha = .ok nodes) :
    BlockInv { s with
      node := nodes, root := BitVec.ofNat 16 (2 * s.n - 2), treeValid := true, phase := .built } := by
  have hN := h.alpha.n_le
  have hc := h.phase.codesValid_eq_false (.inl hp)
  have cause := h.phase.faultCause_eq_none (by simp [hp])
  have hw : TreeWf s.alpha nodes := by
    obtain ⟨out, e, w⟩ := buildNodes_spec h1 hN
    rw [hb] at e
    cases e
    exact w.treeWf h1
  exact
    { alpha := ⟨h.alpha.params, h.alpha.fits, h.alpha.distinct, h.alpha.bufSize⟩
      phase := by constructor <;> simp [hc, cause]
      storage :=
        { tree := fun _ => ⟨h1, hw, by
            show (BitVec.ofNat 16 (2 * s.n - 2)).toNat = 2 * s.n - 2
            rw [BitVec.toNat_ofNat, Nat.mod_eq_of_lt (by omega)]⟩
          noTree := nofun
          codes := fun e => by simp [hc] at e
          noCodes := h.storage.noCodes }
      pack := .unstarted (.inr (.inl rfl)) h.alpha.bufSize.1 h.pack.acc (h.pack.unused (.inl hp))
      log := ⟨h.log.run, fun _ => h.log.clean (by simp [hp]), h.log.bytes, h.log.writes, h.log.responses⟩ }

/-- The table of one symbol is a code table (R161). -/
theorem codeWf_single (p : Params) : CodeWf p 1 [[false]] where
  size := rfl
  len := by simp [lMax]
  free := List.pairwise_singleton _ _

/-- The paths to the leaves of a tree are a code table (R162). -/
theorem CodesOf.codeWf {p : Params} {alpha : List AlphaEntry} {nodes : List Node} {table : List Code}
    (w : CodesOf alpha nodes table) (ht : TreeWf alpha nodes) (fits : alpha.length ≤ p.nMax) :
    CodeWf p alpha.length table where
  size := w.size
  len c hc := by
    obtain ⟨k, hk, rfl⟩ := List.mem_iff_getElem.1 hc
    obtain ⟨d, hd, h1, h2, -⟩ := w.path k (w.size ▸ hk)
    rw [List.getElem?_eq_getElem hk] at hd
    rw [Option.some.inj hd, lMax]
    omega
  free := w.free ht

theorem BlockInv.derive {s : State} {table : List Code} (h : BlockInv s) (hp : s.phase = .built)
    (ht : s.n = 1 ∧ table = [[false]] ∨ s.n ≠ 1 ∧ deriveCodes s.node s.n s.root.toNat = .ok table) :
    BlockInv { s with code := table, codesValid := true, phase := .coded } := by
  have tree := h.phase.tree.2 (.inl hp)
  have cause := h.phase.faultCause_eq_none (by simp [hp])
  have hw : CodeWf s.params s.n table := by
    obtain ⟨h1, w, root⟩ := h.storage.tree tree
    rcases ht with ⟨h1, rfl⟩ | ⟨h2, hd⟩
    · rw [h1]
      exact codeWf_single s.params
    · obtain ⟨out, e, wo⟩ := deriveCodes_spec w (show 2 ≤ s.n by omega)
      rw [root] at hd
      cases hd.symm.trans e
      exact wo.codeWf w h.alpha.fits
  exact
    { alpha := ⟨h.alpha.params, h.alpha.fits, h.alpha.distinct, h.alpha.bufSize⟩
      phase := by constructor <;> simp [tree, cause]
      storage := ⟨h.storage.tree, h.storage.noTree, fun _ => hw, nofun⟩
      pack := .unstarted (.inr (.inr rfl)) h.alpha.bufSize.1 h.pack.acc (h.pack.unused (.inr (.inl hp)))
      log := ⟨h.log.run, fun _ => h.log.clean (by simp [hp]), h.log.bytes, h.log.writes, h.log.responses⟩ }

theorem BlockInv.setBufsize {s : State} {size : Val} (h : BlockInv s)
    (hp : s.phase = .load ∨ s.phase = .built ∨ s.phase = .coded) (h1 : 1#32 ≤ size) (h2 : size ≤ s.params.bufMax) :
    BlockInv { s with bufSize := size } where
  alpha := ⟨h.alpha.params, h.alpha.fits, h.alpha.distinct, h1, h2⟩
  phase := ⟨h.phase.codes, h.phase.tree, h.phase.cause, h.phase.causes⟩
  storage := ⟨h.storage.tree, h.storage.noTree, h.storage.codes, h.storage.noCodes⟩
  pack := .unstarted hp h1 h.pack.acc (h.pack.unused (by tauto))
  log := ⟨h.log.run, h.log.clean, h.log.bytes, h.log.writes, h.log.responses⟩

/-! ### Commands that pack: ENCODE and FINISH -/

/-- In the phases that ENCODE and FINISH are legal in, the run has neither ended nor failed (R111). -/
theorem Phase.ne_of_packing {p : Phase} (h : p = .coded ∨ p = .encoding) : p ≠ .fault ∧ p ≠ .done := by
  rcases h with rfl | rfl <;> exact ⟨nofun, nofun⟩

/-- ENCODE moves to ENCODING before its first bit (R181). -/
theorem BlockInv.encoding {s : State} (h : BlockInv s) (hp : s.phase = .coded ∨ s.phase = .encoding) :
    BlockInv { s with phase := .encoding } := by
  obtain ⟨hf, hd⟩ := Phase.ne_of_packing hp
  have hc := h.phase.codesValid_of_phase hp
  have ht := h.phase.tree.2 (.inr hc)
  have cause := h.phase.faultCause_eq_none hf
  exact
    { alpha := ⟨h.alpha.params, h.alpha.fits, h.alpha.distinct, h.alpha.bufSize⟩
      phase := by constructor <;> simp [hc, ht, cause]
      storage := ⟨h.storage.tree, h.storage.noTree, h.storage.codes, h.storage.noCodes⟩
      pack :=
        { acc := h.pack.acc
          room := fun _ => h.pack.room hf
          full := h.pack.full
          unused := fun e => by simp [cause] at e
          done := nofun
          counted := fun _ _ => h.pack.counted hd hf
          padded := nofun
          fault := nofun }
      log := ⟨h.log.run, fun _ => h.log.clean hf, h.log.bytes, h.log.writes, h.log.responses⟩ }

/-- The bits of a code keep the invariant of ENCODING, if every write is answered OK. -/
theorem BlockInv.appendBits {s t : State} {c : Code} (h : BlockInv s) (hp : s.phase = .encoding)
    (ha : appendBits s c = .ok t) : BlockInv t := by
  have p : PackStep s t := .of_appendBits ha
  obtain ⟨new, xs, w, -⟩ := appendBits_issues c s
  have acc := appendBits_acc c s h.pack.acc
  have room := appendBits_room c s (h.pack.room (by simp [hp]))
  have counts := appendBits_counts c s (h.pack.counted (by simp [hp]) (by simp [hp]))
  rw [ha] at w acc room counts
  have hpt : t.phase = .encoding := p.same.phase.trans hp
  have cause := (h.phase.same p.same).faultCause_eq_none (by simp [hpt])
  exact
    { alpha := h.alpha.same p.same
      phase := h.phase.same p.same
      storage := h.storage.same p.same
      pack :=
        { acc := acc
          room := fun _ => room
          full := room.le
          unused := fun e => by simp [hpt, cause] at e
          done := fun e => by simp [hpt] at e
          counted := fun _ _ => counts
          padded := fun e => by simp [hpt] at e
          fault := fun e => by simp [hpt] at e }
      log := h.log.issues p w }

/-- The last write of FINISH leaves ACC alone, and OBUF no longer than it was. -/
theorem flushRest_packer (s : State) : (flushRest s).state.acc = s.acc ∧ (flushRest s).state.accN = s.accN ∧
    (flushRest s).state.obuf.length ≤ s.obuf.length := by
  unfold flushRest
  split
  · exact ⟨rfl, rfl, le_rfl⟩
  · obtain ⟨-, e⟩ | ⟨rest, -, e⟩ | ⟨rest, -, e⟩ := flushBuf_cases s <;> rw [e] <;> simp [PackResult.state]

/-- And it moves bytes from OBUF to BYTES_OUT, so their sum stays (R36). -/
theorem flushRest_countsPadded {s : State} (h : s.countsPadded) : (flushRest s).state.countsPadded := by
  unfold flushRest
  split
  · exact h
  · obtain ⟨-, e⟩ | ⟨rest, -, e⟩ | ⟨rest, -, e⟩ := flushBuf_cases s <;> rw [e]
    · exact h
    · exact h
    · simpa [State.countsPadded, PackResult.state] using h

/-- FINISH's packing, whichever way it ends, leaves ACC empty, OBUF within its bound and the counters padded (R184). -/
theorem BlockInv.finish_packer {s : State} {r : PackResult} (h : BlockInv s)
    (hp : s.phase = .coded ∨ s.phase = .encoding) (hr : flushRest (padLastByte s) = r) :
    r.state.acc = 0#8 ∧ r.state.obuf.length ≤ r.state.bufSize.toNat ∧ r.state.countsPadded := by
  obtain ⟨hf, hd⟩ := Phase.ne_of_packing hp
  obtain ⟨acc, -, len⟩ := flushRest_packer (padLastByte s)
  subst hr
  refine ⟨acc.trans (padLastByte_acc s h.pack.acc), ?_, ?_⟩
  · rw [(flushRest_packStep _).same.bufSize]
    exact len.trans (padLastByte_room s (h.pack.room hf))
  · exact flushRest_countsPadded (padLastByte_counts s (h.pack.counted hd hf))

theorem BlockInv.finish {s t : State} (h : BlockInv s) (hp : s.phase = .coded ∨ s.phase = .encoding)
    (ht : flushRest (padLastByte s) = .ok t) : BlockInv { t with phase := .done } := by
  have p : PackStep s t := .of_finish ht
  obtain ⟨acc, full, counts⟩ := h.finish_packer hp ht
  obtain ⟨obuf, -⟩ := flushRest_ok ht
  have hf : t.phase ≠ .fault := p.same.phase ▸ (Phase.ne_of_packing hp).1
  have hc : t.codesValid = true := p.same.codesValid.trans (h.phase.codesValid_of_phase hp)
  have tree := (h.phase.same p.same).tree.2 (.inr hc)
  have cause := (h.phase.same p.same).faultCause_eq_none hf
  have alpha := h.alpha.same p.same
  have storage := h.storage.same p.same
  have log : LogInv t := by
    obtain ⟨new, xs, w, -⟩ := flushRest_issues (padLastByte s)
    rw [ht] at w
    exact h.log.issues p ((Issues.none (padLastByte_sink s) (padLastByte_ackScript s)).after w)
  have hb : 1 ≤ t.bufSize.toNat := by simpa [BitVec.le_def] using alpha.bufSize.1
  exact
    { alpha := ⟨alpha.params, alpha.fits, alpha.distinct, alpha.bufSize⟩
      phase := by constructor <;> simp [hc, tree, cause]
      storage := ⟨storage.tree, storage.noTree, storage.codes, storage.noCodes⟩
      pack :=
        { acc := by
            show t.acc.toNat < _
            rw [show t.acc = 0#8 from acc]
            exact Nat.two_pow_pos _
          room := fun _ => by simp [obuf]; omega
          full := full
          unused := fun e => by simp [cause] at e
          done := fun _ => ⟨counts.1, obuf⟩
          counted := fun e => absurd rfl e
          padded := fun _ => counts
          fault := nofun }
      log := ⟨log.run, fun _ => log.clean hf, log.bytes, log.writes, log.responses⟩ }

/-! ### Fatal errors (R212, R215) -/

/-- BUILD of no symbol: nothing has been packed and no flag is set (R223). -/
theorem BlockInv.takeFatal_errEmpty {s : State} (h : BlockInv s) (hp : s.phase = .load) :
    BlockInv (s.takeFatal .errEmpty) where
  alpha := ⟨h.alpha.params, h.alpha.fits, h.alpha.distinct, h.alpha.bufSize⟩
  phase := by
    have tree := h.phase.treeValid_eq_false hp
    have codes := h.phase.codesValid_eq_false (.inl hp)
    constructor <;> simp [tree, codes]
  storage := ⟨h.storage.tree, h.storage.noTree, h.storage.codes, h.storage.noCodes⟩
  pack :=
    { acc := h.pack.acc
      room := fun e => absurd rfl e
      full := h.pack.full
      unused := fun _ => h.pack.unused (.inl hp)
      done := nofun
      counted := fun _ e => absurd rfl e
      padded := nofun
      fault := fun _ => .inl (h.pack.counted (by simp [hp]) (by simp [hp])) }
  log := ⟨h.log.run, fun e => absurd rfl e, h.log.bytes, h.log.writes,
    by simp [State.takeFatal_responses, h.log.responses]⟩

/-- ENCODE and FINISH: the packer stands where the error found it, and the code table is valid (R215, R221, R222). -/
theorem BlockInv.takeFatal_packing {s u : State} {e : ErrCode} (h : BlockInv s) (hc : s.codesValid = true)
    (p : PackStep s u) (he : e = .errNocode ∨ e = .errIo) (acc : u.acc.toNat < 2 ^ u.accN.val)
    (full : u.obuf.length ≤ u.bufSize.toNat) (counts : u.countsExact ∨ u.countsPadded) :
    BlockInv (u.takeFatal e) := by
  have hcu : u.codesValid = true := p.same.codesValid.trans hc
  have tree := (h.phase.same p.same).tree.2 (.inr hcu)
  have alpha := h.alpha.same p.same
  have storage := h.storage.same p.same
  have log := (logInv_iff.1 h.log).1.packStep p
  exact
    { alpha := ⟨alpha.params, alpha.fits, alpha.distinct, alpha.bufSize⟩
      phase := by rcases he with rfl | rfl <;> constructor <;> simp [hcu, tree]
      storage := ⟨storage.tree, storage.noTree, storage.codes, storage.noCodes⟩
      pack :=
        { acc := acc
          room := fun e => absurd rfl e
          full := full
          unused := fun e => by rcases he with rfl | rfl <;> simp at e
          done := nofun
          counted := fun _ e => absurd rfl e
          padded := nofun
          fault := fun _ => counts }
      log := ⟨log.run, fun e => absurd rfl e, log.bytes, log.writes,
        by simp [State.takeFatal_responses, log.responses]⟩ }

/-! ### Every command, every event -/

/-- A body that raises nothing has built a state that meets the invariant. -/
theorem BodyDone.blockInv {i : Instr} {s u : State} {d0 d1 : Word} (h : BodyDone s i u d0 d1)
    (hl : legal i s = true) (hs : BlockInv s) : BlockInv u := by
  cases h with
  | read | nop => exact hs
  | clear => exact .clearBlock hs.alpha.params hs.log.responses
  | loadSym room fresh => exact hs.loadSym ((legal_iff _ s).1 hl) room fresh
  | build h1 hb => exact hs.build ((legal_iff .build s).1 hl) h1 hb
  | derive ht => exact hs.derive ((legal_iff .derive s).1 hl) ht
  | setBufsize h1 h2 => exact hs.setBufsize ((legal_iff (.setBufsize _) s).1 hl) h1 h2
  | encode _ ha => exact (hs.encoding ((legal_iff (.encode _) s).1 hl)).appendBits rfl ha
  | finish ht => exact hs.finish ((legal_iff .finish s).1 hl) ht

/-- A fatal error leaves a state that meets the invariant; the structural checks of BUILD and DERIVE never fire, since
the alphabet can be built and the tree can be walked (R224). -/
theorem BodyFatal.blockInv {i : Instr} {s u : State} {e : ErrCode} (h : BodyFatal s i e u) (hl : legal i s = true)
    (hs : BlockInv s) : BlockInv (u.takeFatal e) := by
  cases h with
  | empty => exact hs.takeFatal_errEmpty ((legal_iff .build s).1 hl)
  | tree h1 hb =>
    obtain ⟨out, ok, -⟩ := buildNodes_spec h1 hs.alpha.n_le
    cases hb.symm.trans ok
  | codes h1 hd =>
    have hp : s.phase = .built := (legal_iff .derive s).1 hl
    obtain ⟨h0, w, root⟩ := hs.storage.tree (hs.phase.tree.2 (.inl hp))
    obtain ⟨out, ok, -⟩ := deriveCodes_spec w (show 2 ≤ s.n by omega)
    rw [root] at hd
    cases hd.symm.trans ok
  | @nocode sym =>
    have hp := (legal_iff (.encode sym) s).1 hl
    have counted := (hs.encoding hp).pack.counted nofun nofun
    exact hs.takeFatal_packing (hs.phase.codesValid_of_phase hp) (.refl s) (.inl rfl) hs.pack.acc hs.pack.full
      (.inl counted)
  | @encodeIo sym c _ _ ha =>
    have hp := (legal_iff (.encode sym) s).1 hl
    have he := hs.encoding hp
    have acc := appendBits_acc c _ he.pack.acc
    have room := appendBits_room c _ (he.pack.room nofun)
    have counts := appendBits_counts c _ (he.pack.counted nofun nofun)
    rw [ha] at acc room counts
    exact he.takeFatal_packing (hs.phase.codesValid_of_phase hp) (.of_appendBits ha) (.inr rfl) acc room.1.le
      (.inl counts)
  | finishIo hr =>
    have hp := (legal_iff .finish s).1 hl
    obtain ⟨acc, full, counts⟩ := hs.finish_packer hp hr
    refine hs.takeFatal_packing (hs.phase.codesValid_of_phase hp) (.of_finish hr) (.inr rfl) ?_ full (.inr counts)
    rw [show u.acc = 0#8 from acc]
    exact Nat.two_pow_pos _

/-- Every command that answers keeps the invariant (R43). -/
theorem Inv.exec {i : Instr} {s t : State} (h : Machine.Inv s) (he : exec i s = .next t) : Machine.Inv t := by
  refine ⟨?_, .of_exec h.run.begins he⟩
  rcases exec_cases he with ⟨-, rfl⟩ | ⟨hl, ⟨u, d0, d1, hb, rfl⟩ | ⟨e, -, rfl⟩ | ⟨e, u, hb, rfl⟩⟩
  · exact h.toBlockInv.respond _ _ _
  · exact ((body_done hb).blockInv hl h.toBlockInv).respond _ _ _
  · exact h.toBlockInv.respond _ _ _
  · exact (body_fatal hb).blockInv hl h.toBlockInv

/-- So does an ILLEGAL word, and with it every command word. -/
theorem Inv.runWord {cw : Word} {s t : State} (h : Machine.Inv s) (hw : runWord cw s = .next t) : Machine.Inv t := by
  unfold Machine.runWord at hw
  split at hw
  · cases hw
    exact ⟨h.toBlockInv.respond _ _ _, .of_respond _ _ h.run.begins⟩
  · exact h.exec hw

/-- Reset and CLEAR give a state that meets the whole invariant. -/
theorem Inv.clearBlock {s : State} (params : s.params.wf = true) (responses : s.pos = s.responses.length) :
    Machine.Inv s.clearBlock :=
  ⟨.clearBlock params responses, .of_clearBlock s⟩

/-- Settles O54: the state after reset is the reset of itself. -/
theorem invariantHoldsAtReset : Obligations.InvariantHoldsAtReset := by
  intro p hp
  rw [← State.clearBlock_resetWith]
  exact .clearBlock hp rfl

/-- Settles O55, by the kind of event: a command word, reset, reset during a command, or none. -/
theorem everyStepKeepsTheInvariant : Obligations.EveryStepKeepsTheInvariant := by
  intro s t h hstep
  unfold step takeEvent at hstep
  split at hstep
  · cases hstep
    exact h
  · next e rest _ =>
    have h' := h.with_host rest
    cases e with
    | command cw => exact h'.runWord hstep
    | reset =>
      cases hstep
      exact .clearBlock h.alpha.params h.log.responses
    | resetDuring cw acks inFlight =>
      cases hstep
      exact .clearBlock h.alpha.params h.log.responses

end Sys2Proof.Machine

/-! PROOFS. The channels (20_memory.md): one response for each command, reads with no effect, the lengths of the writes,
and an output that does not depend on BUF_SIZE. -/

namespace Sys2Proof.Machine

/-! ### The command channel (R62, R63, R72) -/

/-- The host's word is taken from the channel and run (R62). -/
theorem step_command {s : State} {cw : Word} {rest : List HostEvent} (h : s.host = .command cw :: rest) :
    step s = runWord cw { s with host := rest } := by
  simp only [step, takeEvent, h]
  rfl

theorem runWord_ok {cw : Word} {i : Instr} (s : State) (h : decode cw = .ok i) : runWord cw s = exec i s := by
  simp only [runWord, h]

theorem runWord_error {cw : Word} {e : Illegal} (s : State) (h : decode cw = .error e) :
    runWord cw s = .next (s.takeReject .errIllegal) := by
  simp only [runWord, h]
  rfl

/-- Settles O6: the event is taken, and the word runs as the command that it decodes to. -/
theorem stepRunsTheDecodedCommand : Obligations.StepRunsTheDecodedCommand := by
  intro s cw i rest hs hd
  rw [step_command hs, runWord_ok _ hd]

/-- `t` is past one command sent in `s`: it has one response more, with its own STATUS and the data words `d0`, `d1`,
and the position is one further (R39, R63). -/
structure Answers (s t : State) (d0 d1 : Word) : Prop where
  host : t.host = s.host
  params : t.params = s.params
  pos : t.pos = s.pos + 1
  responses : t.responses = s.responses ++ [⟨t.status, d0, d1⟩]

theorem SameLog.refl (s : State) : SameLog s s := ⟨rfl, rfl, rfl, rfl, id⟩

theorem SameLog.answers_complete {s u : State} (h : SameLog s u) (d0 d1 : Word) :
    Answers s (u.complete d0 d1) d0 d1 :=
  ⟨h.host, h.params, congrArg (· + 1) h.pos, by rw [State.complete_responses, h.responses]⟩

theorem SameLog.answers_takeReject {s u : State} (h : SameLog s u) (e : ErrCode) :
    Answers s (u.takeReject e) 0#64 0#64 :=
  ⟨h.host, h.params, congrArg (· + 1) h.pos, by rw [State.takeReject_responses, h.responses]⟩

theorem SameLog.answers_takeFatal {s u : State} (h : SameLog s u) (e : ErrCode) :
    Answers s (u.takeFatal e) 0#64 0#64 :=
  ⟨h.host, h.params, congrArg (· + 1) h.pos, by rw [State.takeFatal_responses, h.responses]⟩

/-- Every command that answers gives one response; only a read that completed has data in it (R63). -/
theorem exec_answers {i : Instr} {s t : State} (h : exec i s = .next t) :
    ∃ d0 d1, Answers s t d0 d1 ∧ (t.lastErr ≠ .errNone ∨ isRead i = false → d0 = 0#64 ∧ d1 = 0#64) := by
  rcases exec_cases h with ⟨-, rfl⟩ | ⟨-, ⟨u, d0, d1, hb, rfl⟩ | ⟨e, -, rfl⟩ | ⟨e, u, hb, rfl⟩⟩
  · exact ⟨_, _, (SameLog.refl s).answers_takeReject _, fun _ => ⟨rfl, rfl⟩⟩
  · refine ⟨d0, d1, (body_done hb).same.answers_complete d0 d1, ?_⟩
    rintro (he | hi)
    · exact absurd rfl he
    · exact (body_done hb).data hi
  · exact ⟨_, _, (SameLog.refl s).answers_takeReject e, fun _ => ⟨rfl, rfl⟩⟩
  · exact ⟨_, _, (body_fatal hb).same.answers_takeFatal e, fun _ => ⟨rfl, rfl⟩⟩

/-- So does every word: an ILLEGAL one is a reject. -/
theorem runWord_answers {cw : Word} {s t : State} (h : runWord cw s = .next t) :
    ∃ d0 d1, Answers s t d0 d1 ∧
      ((t.lastErr ≠ .errNone ∨ ∀ i, decode cw = .ok i → isRead i = false) → d0 = 0#64 ∧ d1 = 0#64) := by
  cases hc : decode cw with
  | error e =>
    rw [runWord_error s hc] at h
    cases h
    exact ⟨_, _, (SameLog.refl s).answers_takeReject _, fun _ => ⟨rfl, rfl⟩⟩
  | ok i =>
    rw [runWord_ok s hc] at h
    obtain ⟨d0, d1, ha, hd⟩ := exec_answers h
    exact ⟨d0, d1, ha, fun hz => hd (hz.imp_right fun hr => hr i rfl)⟩

/-- Settles O8: the step is the word's run once the event is taken. -/
theorem everyCommandGivesOneResponse : Obligations.EveryCommandGivesOneResponse := by
  intro s t cw rest hs hstep
  rw [step_command hs] at hstep
  obtain ⟨d0, d1, ha, hd⟩ := runWord_answers hstep
  exact ⟨ha.host, ha.params, ha.pos, d0, d1, ha.responses, hd⟩

/-- LAST_ERR, the responses and the position admit no command and forbid none (R111). -/
theorem OnlyLastErr.legal_eq {s t : State} (h : OnlyLastErr s t) (i : Instr) : legal i t = legal i s := by
  rw [show t = _ from h]
  cases i <;> rfl

/-- No register shows LAST_ERR before the read: READ_REG of STATUS reads it as 0 (R114). -/
theorem OnlyLastErr.readRegister_eq {s t : State} (h : OnlyLastErr s t) (reg : Val) :
    readRegister reg { t with lastErr := .errNone } = readRegister reg { s with lastErr := .errNone } := by
  rw [show t = _ from h]
  rfl

/-- The end of a body that changes nothing, with `t` for the state it was run in. -/
def BodyResult.runIn (t : State) : BodyResult → BodyResult
  | .done _ d0 d1 => .done t d0 d1
  | r => r

/-- Nor does the body of a read or of NOP look at LAST_ERR, the responses or the position: it ends in the same way
whatever they are. -/
theorem OnlyLastErr.body_of_read {i : Instr} {s t : State} (h : OnlyLastErr s t) (hi : isRead i = true ∨ i = .nop) :
    bodyOf i t = (bodyOf i s).runIn t := by
  have alpha : t.alpha = s.alpha := by rw [show t = _ from h]
  have n : t.n = s.n := congrArg List.length alpha
  have node : t.node = s.node := by rw [show t = _ from h]
  have code : t.code = s.code := by rw [show t = _ from h]
  have params : t.params = s.params := by rw [show t = _ from h]
  cases i <;> simp [isRead] at hi
  case nop => rfl
  case readReg reg =>
    simp only [bodyOf, bodyReadReg, h.readRegister_eq]
    cases readRegister reg { s with lastErr := .errNone } <;> rfl
  case readAlpha k =>
    simp only [bodyOf, bodyReadAlpha, alpha]
    cases s.alpha[k.toNat]? <;> rfl
  case readNode k =>
    simp only [bodyOf, bodyReadNode, n, node]
    by_cases hk : 2 * s.n - 1 ≤ k.toNat
    · rw [if_pos hk, if_pos hk]
      rfl
    · rw [if_neg hk, if_neg hk]
      cases s.node[k.toNat]? <;> rfl
  case readCode k w =>
    simp only [bodyOf, bodyReadCode, n, alpha, code, params]
    by_cases hk : s.n ≤ k.toNat ∨ wMax s.params ≤ w.toNat
    · rw [if_pos hk, if_pos hk]
      rfl
    · rw [if_neg hk, if_neg hk]
      cases s.alpha[k.toNat]? <;> cases s.code[k.toNat]? <;> rfl

/-- A read or NOP ends the same way from every state that differs in LAST_ERR, the responses and the position only. -/
theorem exec_of_read {i : Instr} (s : State) (hi : isRead i = true ∨ i = .nop) :
    (∃ d0 d1, ∀ t, OnlyLastErr s t → exec i t = .next (t.complete d0 d1)) ∨
      ∃ e, ∀ t, OnlyLastErr s t → exec i t = .next (t.takeReject e) := by
  cases hl : legal i s with
  | false => exact .inr ⟨_, fun t ht => exec_of_illegal ((ht.legal_eq i).trans hl)⟩
  | true =>
    rcases body_of_read s hi with ⟨d0, d1, hb⟩ | hb
    · refine .inl ⟨d0, d1, fun t ht => ?_⟩
      have hbt : bodyOf i t = .done t d0 d1 := by rw [ht.body_of_read hi, hb]; rfl
      rw [exec_of_legal ((ht.legal_eq i).trans hl), hbt]
      rfl
    · refine .inr ⟨.errRange, fun t ht => ?_⟩
      have hbt : bodyOf i t = .reject .errRange := by rw [ht.body_of_read hi, hb]; rfl
      rw [exec_of_legal ((ht.legal_eq i).trans hl), hbt]
      rfl

/-- Settles O17: a completion repeats its data and its STATUS, and a reject its STATUS. -/
theorem readsHaveNoEffect : Obligations.ReadsHaveNoEffect := by
  intro i s hi
  rcases exec_of_read s hi with ⟨d0, d1, h⟩ | ⟨e, h⟩
  · refine ⟨_, _, h s rfl, rfl, h _ rfl, ?_⟩
    rw [State.complete_responses, State.complete_responses, List.getLast?_concat, List.getLast?_concat]
    rfl
  · refine ⟨_, _, h s rfl, rfl, h _ rfl, ?_⟩
    rw [State.takeReject_responses, State.takeReject_responses, List.getLast?_concat, List.getLast?_concat]
    rfl

/-! ### The sink channel (R64, R76) -/

/-- The packing of ENCODE writes full buffers, whichever way it ends (R182, R190). -/
theorem encode_writes {s : State} {c : Code} {r : PackResult} (hr : appendBits { s with phase := .encoding } c = r) :
    ∃ new, r.state.sink = s.sink ++ new ∧ ∀ w ∈ new, w.bytes.length = s.bufSize.toNat := by
  obtain ⟨new, xs, hi, len⟩ := appendBits_issues c { s with phase := .encoding }
  exact ⟨new, hr ▸ hi.sink, len⟩

theorem exec_encode_writes {sym : Sym} {s t : State} (h : exec (.encode sym) s = .next t) :
    ∃ new, t.sink = s.sink ++ new ∧ ∀ w ∈ new, w.bytes.length = s.bufSize.toNat := by
  rcases exec_cases h with ⟨-, rfl⟩ | ⟨-, ⟨u, d0, d1, hb, rfl⟩ | ⟨e, -, rfl⟩ | ⟨e, u, hb, rfl⟩⟩
  · exact ⟨[], by simp⟩
  · cases body_done hb with
    | read hr => cases hr
    | encode _ hr => exact encode_writes hr
  · exact ⟨[], by simp⟩
  · cases body_fatal hb with
    | nocode => exact ⟨[], by simp⟩
    | encodeIo _ hr => exact encode_writes hr

/-- The packing of FINISH issues no write, or one of what the padded buffer holds (R184). -/
theorem finish_writes {s : State} {r : PackResult} (room : s.obuf.length < s.bufSize.toNat)
    (hr : flushRest (padLastByte s) = r) :
    ∃ new, r.state.sink = s.sink ++ new ∧ new.length ≤ 1 ∧
      ∀ w ∈ new, 1 ≤ w.bytes.length ∧ w.bytes.length ≤ s.bufSize.toNat := by
  obtain ⟨new, xs, hi, one, bytes⟩ := flushRest_issues (padLastByte s)
  have full := padLastByte_room s room
  rw [(padLastByte_same s).bufSize] at full
  refine ⟨new, by rw [← hr, hi.sink, padLastByte_sink], one, fun w hw => ?_⟩
  obtain ⟨hb, hne⟩ := bytes w hw
  rw [hb]
  exact ⟨List.length_pos_iff.2 hne, full⟩

theorem exec_finish_writes {s t : State} (room : s.obuf.length < s.bufSize.toNat) (h : exec .finish s = .next t) :
    ∃ new, t.sink = s.sink ++ new ∧ new.length ≤ 1 ∧
      ∀ w ∈ new, 1 ≤ w.bytes.length ∧ w.bytes.length ≤ s.bufSize.toNat := by
  rcases exec_cases h with ⟨-, rfl⟩ | ⟨-, ⟨u, d0, d1, hb, rfl⟩ | ⟨e, -, rfl⟩ | ⟨e, u, hb, rfl⟩⟩
  · exact ⟨[], by simp⟩
  · cases body_done hb with
    | read hr => cases hr
    | finish hr => exact finish_writes room hr
  · exact ⟨[], by simp⟩
  · cases body_fatal hb with
    | finishIo hr => exact finish_writes room hr

/-- Settles O51: ENCODE flushes full buffers only, and FINISH flushes once what is left. -/
theorem writesAreWholeBuffers : Obligations.WritesAreWholeBuffers :=
  fun _ _ room _ => ⟨fun _ => exec_encode_writes, exec_finish_writes room⟩

/-- With every write answered OK, ENCODE of a symbol that has a code packs all of it and completes (R181). -/
theorem exec_encode_allOk {s : State} {sym : Sym} {c : Code} (hp : s.phase = .coded ∨ s.phase = .encoding)
    (ha : s.ackScript.allOk = true) (hc : codeOf s sym = some c) :
    ∃ t, appendBits { s with phase := .encoding } c = .ok t ∧ t.ackScript.allOk = true ∧
      exec (.encode sym) s = .next (t.complete 0#64 0#64) := by
  obtain ⟨new, xs, hi, -⟩ := appendBits_issues c { s with phase := .encoding }
  obtain ⟨⟨t, ht⟩, hok⟩ := hi.allOk ha
  rw [ht] at hok
  refine ⟨t, ht, hok, ?_⟩
  rw [exec_of_legal ((legal_iff (.encode sym) s).2 hp)]
  simp only [bodyOf, bodyEncode, hc, ht]
  rfl

/-- With every write answered OK, FINISH completes in DONE (R184). -/
theorem exec_finish_allOk {s : State} (hp : s.phase = .coded ∨ s.phase = .encoding)
    (ha : s.ackScript.allOk = true) :
    ∃ t, flushRest (padLastByte s) = .ok t ∧
      exec .finish s = .next ({ t with phase := .done }.complete 0#64 0#64) := by
  obtain ⟨new, xs, hi, -⟩ := flushRest_issues (padLastByte s)
  obtain ⟨⟨t, ht⟩, -⟩ := hi.allOk (by rwa [padLastByte_ackScript])
  refine ⟨t, ht, ?_⟩
  rw [exec_of_legal ((legal_iff .finish s).2 hp)]
  simp only [bodyOf, bodyFinish, ht]
  rfl

/-- FINISH leaves nothing in OBUF and ACC, so what it has written is the stream and its pad (R184, R186). -/
theorem finish_output {s t : State} (hr : s.runStart ≤ s.sink.length) (ht : flushRest (padLastByte s) = .ok t) :
    ∃ pad < 8, bytesBits t.output = s.stream ++ List.replicate pad false := by
  obtain ⟨pad, hpad, hs, -⟩ := padLastByte_stream s
  obtain ⟨obuf, -, accN⟩ := flushRest_ok ht
  have hst := flushRest_stream (padLastByte s) ((padLastByte_packStep s).run hr)
  rw [ht, hs] at hst
  refine ⟨pad, hpad, ?_⟩
  rw [← hst]
  simp [PackResult.state, State.stream, obuf, accN]

/-- The bits of a text: the codes of its symbols, in order (R186). -/
def textBits (s : State) (text : List Sym) : List Bool := text.flatMap fun sym => (codeOf s sym).getD []

/-- ENCODE of each symbol of a text of loaded symbols, with every write answered OK, appends the bits of the text. -/
theorem runCommands_encode {text : List Sym} {s : State} (rest : List Instr) (h : Machine.Inv s)
    (hp : s.phase = .coded ∨ s.phase = .encoding) (ha : s.ackScript.allOk = true)
    (hl : ∀ sym ∈ text, ∃ e ∈ s.alpha, e.sym = sym) :
    ∃ t, runCommands (text.map .encode ++ rest) s = runCommands rest t ∧ Machine.Inv t ∧
      (t.phase = .coded ∨ t.phase = .encoding) ∧ t.ackScript.allOk = true ∧
      t.stream = s.stream ++ textBits s text := by
  induction text generalizing s with
  | nil => exact ⟨s, rfl, h, hp, ha, by simp [textBits]⟩
  | cons sym text ih =>
    have size := (h.storage.codes (h.phase.codesValid_of_phase hp)).size
    obtain ⟨c, hc⟩ : ∃ c, codeOf s sym = some c := by
      rw [← Option.ne_none_iff_exists', Ne, codeOf_eq_none size]
      simpa using hl sym (by simp)
    obtain ⟨t, ht, hok, hx⟩ := exec_encode_allOk hp ha hc
    have same := (PackStep.of_appendBits ht).same
    obtain ⟨j, -, hs, -, hj⟩ := appendBits_stream c { s with phase := .encoding } h.log.run
    rw [ht, hj t ht, List.take_length] at hs
    have alpha : (t.complete 0#64 0#64).alpha = s.alpha := same.alpha
    have code : (t.complete 0#64 0#64).code = s.code := same.code
    have codes : textBits (t.complete 0#64 0#64) text = textBits s text := by simp only [textBits, codeOf, alpha, code]
    obtain ⟨u, hu, inv, phase, ok, stream⟩ :=
      ih (h.exec hx) (.inr same.phase) hok (alpha ▸ fun x hx => hl x (by simp [hx]))
    refine ⟨u, ?_, inv, phase, ok, ?_⟩
    · simp only [List.map_cons, List.cons_append, runCommands, hx]
      exact hu
    · rw [stream, codes, show (t.complete 0#64 0#64).stream = s.stream ++ c from hs]
      simp [textBits, hc]

/-- The run of a text from CODED, with every write answered OK: it ends in DONE, and its output is the bits of the text
with fewer than 8 zero bits after them (R186). -/
theorem runCommands_text {text : List Sym} {s : State} (h : Machine.Inv s) (hp : s.phase = .coded)
    (ha : s.ackScript.allOk = true) (hl : ∀ sym ∈ text, ∃ e ∈ s.alpha, e.sym = sym) :
    ∃ t, runCommands (text.map .encode ++ [.finish]) s = .next t ∧ t.phase = .done ∧
      ∃ pad < 8, bytesBits t.output = textBits s text ++ List.replicate pad false := by
  obtain ⟨u, hu, inv, phase, ok, stream⟩ := runCommands_encode [.finish] h (.inl hp) ha hl
  obtain ⟨t, ht, hx⟩ := exec_finish_allOk phase ok
  obtain ⟨pad, hpad, hout⟩ := finish_output inv.log.run ht
  obtain ⟨accN, obuf, -, -, -, writes⟩ := h.pack.unused (.inr (.inr (.inl hp)))
  have empty : s.stream = [] := by simp [State.stream, State.output, writes, obuf, accN, okBytes]
  rw [stream, empty, List.nil_append] at hout
  refine ⟨{ t with phase := .done }.complete 0#64 0#64, ?_, rfl, pad, hpad, hout⟩
  rw [hu]
  simp only [runCommands, hx]

/-- Whole bytes that are the same bits and fewer than 8 zero bits after them have as many of these. -/
theorem pad_unique {xs ys : List Byte} {bits : List Bool} {p q : Nat} (hp : p < 8) (hq : q < 8)
    (hx : bytesBits xs = bits ++ List.replicate p false) (hy : bytesBits ys = bits ++ List.replicate q false) :
    p = q := by
  have lx := congrArg List.length hx
  have ly := congrArg List.length hy
  simp only [bytesBits_length, List.length_append, List.length_replicate] at lx ly
  omega

/-- Another BUF_SIZE in range keeps the invariant of CODED: no response shows it (R22, R180). -/
theorem Inv.with_bufSize {s : State} {size : Val} (h : Machine.Inv s) (hp : s.phase = .coded) (h1 : 1#32 ≤ size)
    (h2 : size ≤ s.params.bufMax) : Machine.Inv { s with bufSize := size } :=
  ⟨h.toBlockInv.setBufsize (.inr (.inr hp)) h1 h2, h.run.begins, h.run.shows, h.run.quiet⟩

/-- Settles O52: the bits of the text do not depend on BUF_SIZE, and so neither do the pad and the bytes. -/
theorem bufferSizeDoesNotChangeTheOutput : Obligations.BufferSizeDoesNotChangeTheOutput := by
  intro s text b1 b2 h hp ha h1 h1' h2 h2' hl
  obtain ⟨t1, hr1, hd1, pad, hpad, out1⟩ := runCommands_text (h.with_bufSize hp h1 h1') hp ha hl
  obtain ⟨t2, hr2, hd2, pad2, hpad2, out2⟩ := runCommands_text (h.with_bufSize hp h2 h2') hp ha hl
  have out2 : bytesBits t2.output = textBits s text ++ List.replicate pad false :=
    pad_unique hpad hpad2 out1 out2 ▸ out2
  exact ⟨t1, t2, pad, hr1, hr2, hd1, hd2, bytesBits_injective (out1.trans out2.symm), hpad, out1⟩

end Sys2Proof.Machine

/-! PROOFS. Encoding (30_encoding.md R80 to R91).  `decodeFields_eq_ok_iff` says once when fields decode, and
`Instr.fields_of_command` what a command keeps of them; the round trips, the match and mask columns and the illegal
words follow from these two. -/

namespace Sys2Proof

/-! ### When a word decodes (R85, R86, R88) -/

/-- R84's operand columns are `usesB` and `usesVAL` of R88. -/
theorem operandUses_getElem? :
    ∀ op : BitVec 4, op.toNat < 12 → operandUses[op.toNat]? = some ⟨usesB op, usesVal op⟩ := by
  decide

theorem Fields.wf_iff (f : Fields) : f.wf = true ↔ f.op.toNat < 12 ∧ f.rsv = 0#7 ∧
    (usesB f.op = true ∨ f.b = 0#21) ∧ (usesVal f.op = true ∨ f.val = 0#32) := by
  have hlen : operandUses.length = 12 := rfl
  by_cases h : f.op.toNat < 12
  · simp only [wf, opDefined, rsvZero, bFits, valFits, operandUses_getElem? _ h]
    simp [hlen, h, and_assoc]
  · simp [wf, opDefined, hlen, h]

theorem command_eq_none_iff (f : Fields) : command f = none ↔ 12 ≤ f.op.toNat := by
  unfold command
  split
  case h_13 => simp only [eq_self, true_iff, imp_false] at *; omega
  all_goals simp only [reduceCtorEq, false_iff]; omega

theorem op_lt_of_command {f : Fields} {i : Instr} (h : command f = some i) : f.op.toNat < 12 := by
  rw [← not_le, ← command_eq_none_iff, h]
  exact nofun

/-- Fields decode to the command that opcode and operands make, if R85 and R86 find nothing wrong with them. -/
theorem decodeFields_eq_ok_iff {f : Fields} {i : Instr} :
    decodeFields f = .ok i ↔ command f = some i ∧ f.wf = true := by
  unfold decodeFields
  cases hc : command f with
  | none => simp
  | some j =>
    simp only [f.wf_iff, op_lt_of_command hc, true_and, Option.some.injEq]
    split_ifs with hr hb hv
    · simp [hr]
    · simp [hb]
    · simp [hv]
    · rw [Except.ok.injEq, iff_self_and]
      simp only [not_and, Bool.not_eq_false, ← or_iff_not_imp_right, ne_eq, not_not] at hr hb hv
      exact fun _ => ⟨hr, hb, hv⟩

theorem exists_decode_iff (cw : Word) : (∃ i, decode cw = .ok i) ↔ (Fields.ofWord cw).wf = true := by
  simp only [decode, decodeFields_eq_ok_iff, exists_and_right, and_iff_right_iff_imp]
  intro h
  rw [← Option.ne_none_iff_exists', ne_eq, command_eq_none_iff, not_le]
  exact ((Fields.wf_iff _).mp h).1

/-! ### The fields of a command (R81, R83, R84) -/

@[simp] theorem command_fields (i : Instr) : command i.fields = some i := by
  cases i <;> rfl

@[simp] theorem Instr.fields_wf (i : Instr) : i.fields.wf = true := by
  cases i <;> rfl

/-- A command keeps the opcode it was made from and the operands that the opcode uses; its other fields are 0. -/
theorem Instr.fields_of_command {f : Fields} {i : Instr} (h : command f = some i) :
    i.fields = ⟨f.op, 0#7, if usesB f.op then f.b else 0#21, if usesVal f.op then f.val else 0#32⟩ := by
  have hop := op_lt_of_command h
  obtain ⟨op, rsv, b, val⟩ := f
  obtain ⟨k, hk, rfl⟩ : ∃ k < 12, op = BitVec.ofNat 4 k := ⟨_, hop, by simp⟩
  clear hop
  interval_cases k <;> cases h <;> rfl

theorem Instr.op_of_command {f : Fields} {i : Instr} (h : command f = some i) : i.fields.op = f.op := by
  rw [fields_of_command h]

/-- Of legal fields it keeps everything: a field that is dropped was 0 (R82). -/
theorem Fields.eq_fields_of_command {f : Fields} {i : Instr} (h : command f = some i) (hf : f.wf = true) :
    f = i.fields := by
  obtain ⟨-, hr, hb, hv⟩ := f.wf_iff.mp hf
  obtain ⟨op, rsv, b, val⟩ := f
  rw [Instr.fields_of_command h, Fields.mk.injEq]
  refine ⟨rfl, hr, ?_, ?_⟩
  · split_ifs with hu
    · rfl
    · exact hb.resolve_left hu
  · split_ifs with hu
    · rfl
    · exact hv.resolve_left hu

/-! ### The round trips (R80, R87) -/

/-- Settles O2: the word gives the fields back, and the fields of a command are legal and make that command. -/
theorem decodeOfEncodeIsTheCommand : Obligations.DecodeOfEncodeIsTheCommand := by
  intro i
  rw [decode, encode, Fields.ofWord_word, decodeFields_eq_ok_iff]
  exact ⟨command_fields i, i.fields_wf⟩

/-- Settles O3: a legal word has no bit outside its command's fields. -/
theorem encodeOfDecodeIsTheWord : Obligations.EncodeOfDecodeIsTheWord := by
  intro cw i h
  obtain ⟨hc, hf⟩ := decodeFields_eq_ok_iff.mp h
  rw [encode, ← Fields.eq_fields_of_command hc hf, Fields.word_ofWord]

/-- Settles O1: the words are literals, and the decoder computes. -/
theorem specWordsDecode : Obligations.SpecWordsDecode := by
  unfold Obligations.SpecWordsDecode
  decide

/-! ### The match and mask columns (R84) -/

/-- R84's mask for an opcode: OP and RSV, and each operand field that the opcode does not use. -/
def maskFields (op : BitVec 4) : Fields :=
  ⟨.allOnes 4, .allOnes 7, if usesB op then 0#21 else .allOnes 21, if usesVal op then 0#32 else .allOnes 32⟩

/-- R84's match for an opcode: OP, and nothing else. -/
def matchFields (op : BitVec 4) : Fields := ⟨op, 0#7, 0#21, 0#32⟩

theorem Fields.word_inj {f g : Fields} : f.word = g.word ↔ f = g :=
  ⟨fun h => by rw [← f.ofWord_word, h, g.ofWord_word], congrArg word⟩

/-- A mask acts on each field by itself. -/
theorem Fields.word_and (f m : Fields) :
    f.word &&& m.word = Fields.word ⟨f.op &&& m.op, f.rsv &&& m.rsv, f.b &&& m.b, f.val &&& m.val⟩ := by
  change (f.op ++ f.rsv ++ f.b ++ f.val) &&& (m.op ++ m.rsv ++ m.b ++ m.val) = _
  rw [BitVec.and_append, BitVec.and_append, BitVec.and_append]
  rfl

theorem and_ite_allOnes_eq_zero_iff {w : Nat} (x : BitVec w) (used : Bool) :
    x &&& (if used then 0#w else .allOnes w) = 0#w ↔ used = true ∨ x = 0#w := by
  cases used <;> simp

/-- A word matches the row of an opcode exactly when it is legal and has that opcode. -/
theorem masked_eq_iff {op : BitVec 4} (cw : Word) (hop : op.toNat < 12) :
    cw &&& (maskFields op).word = (matchFields op).word ↔
      (Fields.ofWord cw).op = op ∧ (Fields.ofWord cw).wf = true := by
  conv_lhs => rw [← Fields.word_ofWord cw, Fields.word_and, Fields.word_inj]
  simp only [maskFields, matchFields, Fields.mk.injEq, BitVec.and_allOnes, and_ite_allOnes_eq_zero_iff, Fields.wf_iff]
  refine and_congr_right ?_
  rintro rfl
  simp only [hop, true_and]

/-- The row of an opcode selects the command that the opcode makes of the word's operands. -/
theorem decode_eq_ok_iff_masked {cw : Word} (op : BitVec 4) {i : Instr}
    (hi : command { Fields.ofWord cw with op := op } = some i) :
    decode cw = .ok i ↔ cw &&& (maskFields op).word = (matchFields op).word := by
  rw [decode, decodeFields_eq_ok_iff, masked_eq_iff cw (op_lt_of_command hi), and_congr_left_iff]
  refine fun _ => ⟨fun h => (Instr.op_of_command h).symm.trans (Instr.op_of_command hi), ?_⟩
  rintro rfl
  exact hi

/-- Settles O4: each row is the mask and match of its opcode, and 0xC to 0xF are the opcode of no command. -/
theorem matchAndMaskSelectTheCommand : Obligations.MatchAndMaskSelectTheCommand := by
  intro cw
  refine ⟨decode_eq_ok_iff_masked 0x0#4 rfl, decode_eq_ok_iff_masked 0x1#4 rfl, decode_eq_ok_iff_masked 0x2#4 rfl,
    decode_eq_ok_iff_masked 0x3#4 rfl, decode_eq_ok_iff_masked 0x4#4 rfl, decode_eq_ok_iff_masked 0x5#4 rfl,
    decode_eq_ok_iff_masked 0x6#4 rfl, decode_eq_ok_iff_masked 0x7#4 rfl, decode_eq_ok_iff_masked 0x8#4 rfl,
    decode_eq_ok_iff_masked 0x9#4 rfl, decode_eq_ok_iff_masked 0xA#4 rfl, decode_eq_ok_iff_masked 0xB#4 rfl, ?_⟩
  intro hop i h
  exact not_lt.mpr hop (op_lt_of_command (decodeFields_eq_ok_iff.mp h).1)

/-! ### Illegal words (R85, R86) -/

theorem usesB_eq_false_iff (op : BitVec 4) : usesB op = false ↔ op ∉ [0x2#4, 0x6#4, 0xB#4] := by
  simp [usesB, and_assoc]

theorem usesVal_eq_false_iff (op : BitVec 4) :
    usesVal op = false ↔ op ∉ [0x2#4, 0x5#4, 0x8#4, 0x9#4, 0xA#4, 0xB#4] := by
  simp [usesVal, and_assoc]

/-- The ways to be illegal: a reserved opcode, RSV, an unused B, an unused VAL. -/
theorem Fields.not_wf_iff (f : Fields) : ¬ f.wf = true ↔ 0xC#4 ≤ f.op ∨ f.rsv ≠ 0#7 ∨
    (f.b ≠ 0#21 ∧ f.op ∉ [0x2#4, 0x6#4, 0xB#4]) ∨
    (f.val ≠ 0#32 ∧ f.op ∉ [0x2#4, 0x5#4, 0x8#4, 0x9#4, 0xA#4, 0xB#4]) := by
  have hop : 0xC#4 ≤ f.op ↔ ¬ f.op.toNat < 12 := Nat.not_lt.symm
  rw [wf_iff, ← usesB_eq_false_iff, ← usesVal_eq_false_iff, hop]
  simp only [← Bool.not_eq_true]
  tauto

end Sys2Proof

namespace Sys2Proof.Machine

/-- A word that is not legal is a reject with ERR_ILLEGAL (R86). -/
theorem runWord_of_not_wf {cw : Word} (s : State) (h : ¬ (Fields.ofWord cw).wf = true) :
    runWord cw s = .next (s.takeReject .errIllegal) := by
  cases hd : decode cw with
  | error e => exact runWord_error s hd
  | ok i => exact absurd ((exists_decode_iff cw).mp ⟨i, hd⟩) h

/-- Settles O5: the listed words are those that are not legal, and these end in `takeReject`, which is R211's frame. -/
theorem illegalWordIsRejected : Obligations.IllegalWordIsRejected := by
  intro s cw rest hs op bad
  have hbad : ¬ (Fields.ofWord cw).wf = true ↔ bad := (Fields.ofWord cw).not_wf_iff
  rw [← hbad, not_not, exists_decode_iff]
  refine ⟨fun h => ?_, id⟩
  rw [step_command hs, runWord_of_not_wf _ h]
  rfl

end Sys2Proof.Machine

/-! PROOFS. The control rules (40_control.md): the three ends of a command, NOP, the phase table of R111 and the moves
of R115.  Both tables are read off `exec_cases`: a command outside its phases is rejected, and one inside them ends as
`BodyDone`, `BodyReject` and `BodyFatal` (Laws/Exec.lean) list. -/

namespace Sys2Proof.Machine

/-! ### The ends of a command, and NOP (R110, R112, R211, R212) -/

/-- Settles O10: each end writes its fields and then responds. -/
theorem theThreeEndsOfACommand : Obligations.TheThreeEndsOfACommand :=
  fun _ _ _ _ => ⟨rfl, rfl, rfl⟩

/-- Settles O24: NOP is legal in every phase and its body is empty. -/
theorem nopDoesNothing : Obligations.NopDoesNothing :=
  fun _ => exec_of_legal rfl

/-! ### The phase table (R111) -/

theorem BodyReject.error_ne_errPhase {i : Instr} {s : State} {e : ErrCode} (h : BodyReject s i e) :
    e ≠ .errPhase := by
  cases h <;> exact nofun

theorem BodyFatal.error_ne_errPhase {i : Instr} {s u : State} {e : ErrCode} (h : BodyFatal s i e u) :
    e ≠ .errPhase := by
  cases h <;> exact nofun

/-- No body raises ERR_PHASE: it is the phase check's own error. -/
theorem lastErr_ne_errPhase_of_legal {i : Instr} {s t : State} (hl : legal i s = true) (h : exec i s = .next t) :
    t.lastErr ≠ .errPhase := by
  rcases exec_cases h with ⟨hn, -⟩ | ⟨-, ⟨u, d0, d1, -, rfl⟩ | ⟨e, hb, rfl⟩ | ⟨e, u, hb, rfl⟩⟩
  · exact absurd (hl.symm.trans hn) nofun
  · exact nofun
  · exact (body_reject hb).error_ne_errPhase
  · exact (body_fatal hb).error_ne_errPhase

/-- Settles O12: R111's table is `legal`, so outside it the phase check rejects and inside it the body answers. -/
theorem phaseTableIsEnforced : Obligations.PhaseTableIsEnforced := by
  intro i s admitted
  have ha : legal i s = true ↔ admitted := legal_iff i s
  rw [← ha]
  exact ⟨fun hn => exec_of_illegal (Bool.eq_false_of_not_eq_true hn), fun hl _ => lastErr_ne_errPhase_of_legal hl⟩

/-! ### The answers behind an outcome of packing (R64, R183) -/

theorem Issues.newWrites_eq {s : State} {r : PackResult} {new : List SinkWrite} {xs : List Ack}
    (h : Issues s r new xs) : newWrites s r.state = new := by
  rw [newWrites, h.sink, List.drop_left]

/-- Packing goes on only if every write it issued was answered OK. -/
theorem Issues.ack_ok {s t : State} {new : List SinkWrite} {xs : List Ack} (h : Issues s (.ok t) new xs) :
    ∀ w ∈ newWrites s t, w.ack = some .ok :=
  h.newWrites_eq ▸ h.outcome

/-- Packing fails only on a write that was answered FAIL. -/
theorem Issues.ack_fail {s t : State} {new : List SinkWrite} {xs : List Ack} (h : Issues s (.ioFail t) new xs) :
    ∃ w ∈ newWrites s t, w.ack = some .fail := by
  obtain ⟨front, hnew, -⟩ := h.outcome
  refine ⟨⟨t.obuf, some .fail⟩, ?_, rfl⟩
  rw [show newWrites s t = new from h.newWrites_eq, hnew]
  simp

/-- What ENCODE issues is counted from the state that the host sent it in. -/
theorem encode_issues {s : State} {c : Code} {r : PackResult} (h : appendBits { s with phase := .encoding } c = r) :
    ∃ new xs, Issues s r new xs := by
  obtain ⟨new, xs, hi, -⟩ := appendBits_issues c { s with phase := .encoding }
  exact ⟨new, xs, h ▸ ⟨hi.sink, hi.acks, hi.drawn, hi.outcome⟩⟩

/-- And so is what FINISH issues: the pad writes nothing. -/
theorem finish_issues {s : State} {r : PackResult} (h : flushRest (padLastByte s) = r) :
    ∃ new xs, Issues s r new xs := by
  obtain ⟨new, xs, hi, -⟩ := flushRest_issues (padLastByte s)
  exact ⟨_, _, h ▸ (Issues.none (padLastByte_sink s) (padLastByte_ackScript s)).after hi⟩

/-! ### The moves of the phase (R115) -/

/-- In CODED and ENCODING the code table is full, so the symbols without a code are those not loaded (R31). -/
theorem Inv.codeOf_eq_none {s : State} {sym : Sym} (hs : Machine.Inv s)
    (hp : s.phase = .coded ∨ s.phase = .encoding) : codeOf s sym = none ↔ ∀ e ∈ s.alpha, e.sym ≠ sym :=
  Machine.codeOf_eq_none (hs.storage.codes (hs.phase.codesValid_of_phase hp)).size

/-- The invariant's causes of a fault do not list ERR_INVARIANT (R224). -/
theorem BodyFatal.error_ne_errInvariant {i : Instr} {s u : State} {e : ErrCode} (h : BodyFatal s i e u)
    (hl : legal i s = true) (hs : BlockInv s) : e ≠ .errInvariant := by
  rintro rfl
  simpa using (h.blockInv hl hs).phase.causes rfl

/-- Settles O13: a reject leaves the phase; a body that ends moves it by its command's row.  The row of ERR_INVARIANT is
never taken. -/
theorem phaseMovesOnlyByTheTable : Obligations.PhaseMovesOnlyByTheTable := by
  intro i s t hs h
  rcases exec_cases h with ⟨-, rfl⟩ | ⟨hl, ⟨u, d0, d1, hb, rfl⟩ | ⟨e, -, rfl⟩ | ⟨e, u, hb, rfl⟩⟩
  · exact .inl rfl
  · cases body_done hb with
    | read | nop | loadSym | setBufsize => exact .inl rfl
    | clear => exact .inr (.inl ⟨rfl, rfl⟩)
    | build h1 => exact .inr (.inr (.inl ⟨rfl, (legal_iff .build s).1 hl, h1, rfl⟩))
    | derive => exact .inr (.inr (.inr (.inr (.inl ⟨rfl, (legal_iff .derive s).1 hl, rfl⟩))))
    | @encode sym c _ hc hr =>
      have hp := (legal_iff (.encode sym) s).1 hl
      have loaded : ∃ e ∈ s.alpha, e.sym = sym := by
        by_contra hne
        cases hc.symm.trans ((hs.codeOf_eq_none hp).2 fun e he hsym => hne ⟨e, he, hsym⟩)
      obtain ⟨new, xs, hi⟩ := encode_issues hr
      have phase : u.phase = .encoding := (PackStep.of_appendBits hr).same.phase
      exact .inr (.inr (.inr (.inr (.inr (.inl ⟨sym, rfl, hp, .inl ⟨loaded, phase, hi.ack_ok⟩⟩)))))
    | finish hr =>
      obtain ⟨new, xs, hi⟩ := finish_issues hr
      exact .inr (.inr (.inr (.inr (.inr (.inr (.inl
        ⟨rfl, (legal_iff .finish s).1 hl, .inl ⟨rfl, hi.ack_ok⟩⟩))))))
  · exact .inl rfl
  · have possible := (body_fatal hb).error_ne_errInvariant hl hs.toBlockInv
    cases body_fatal hb with
    | empty h0 => exact .inr (.inr (.inr (.inl ⟨rfl, (legal_iff .build s).1 hl, h0, rfl, rfl⟩)))
    | tree | codes => exact absurd rfl possible
    | @nocode sym hc =>
      have hp := (legal_iff (.encode sym) s).1 hl
      exact .inr (.inr (.inr (.inr (.inr (.inl
        ⟨sym, rfl, hp, .inr (.inl ⟨(hs.codeOf_eq_none hp).1 hc, rfl, rfl⟩)⟩)))))
    | @encodeIo sym _ _ _ hr =>
      obtain ⟨new, xs, hi⟩ := encode_issues hr
      exact .inr (.inr (.inr (.inr (.inr (.inl
        ⟨sym, rfl, (legal_iff (.encode sym) s).1 hl, .inr (.inr ⟨rfl, rfl, hi.ack_fail⟩)⟩)))))
    | finishIo hr =>
      obtain ⟨new, xs, hi⟩ := finish_issues hr
      exact .inr (.inr (.inr (.inr (.inr (.inr (.inl
        ⟨rfl, (legal_iff .finish s).1 hl, .inr ⟨rfl, rfl, hi.ack_fail⟩⟩))))))

end Sys2Proof.Machine

/-! PROOFS. The tree builder (41_tree_builder.md R130 to R141).  Each statement about a BUILD reads `MergeInv`
(Laws/Tree.lean) off the arena that BUILD leaves; the order of the loads is `mergeLoop_relabel` (Laws/LoadOrder.lean),
applied to the renumbering that a permutation of distinct entries gives. -/

namespace Sys2Proof.Machine

/-! ### What BUILD leaves (R134, R136) -/

/-- In LOAD with 1 to 32768 symbols BUILD completes, with the nodes of the finished merge. -/
theorem exec_build {s : State} (hp : s.phase = .load) (h1 : 1 ≤ s.n) (hN : s.n ≤ 32768) :
    ∃ nodes, buildNodes s.alpha = .ok nodes ∧ MergeInv s.alpha 0 (s.n - 1) nodes [2 * s.n - 2] ∧
      exec .build s = .next ({ s with
        node := nodes, root := BitVec.ofNat 16 (2 * s.n - 2), treeValid := true, phase := .built }.complete 0#64 0#64) := by
  obtain ⟨h0, -⟩ | ⟨-, nodes, ok, w, body⟩ := bodyBuild_cases s hN
  · omega
  · refine ⟨nodes, ok, w, ?_⟩
    rw [exec_of_legal ((legal_iff .build s).2 hp), bodyOf, body, finishCommand]

/-- The same, read off the state that BUILD answers. -/
theorem built_of_exec {s t : State} (hp : s.phase = .load) (h1 : 1 ≤ s.n) (hN : s.n ≤ 32768)
    (h : exec .build s = .next t) :
    buildNodes s.alpha = .ok t.node ∧ MergeInv s.alpha 0 (s.n - 1) t.node [2 * s.n - 2] ∧
      t.root.toNat = 2 * s.n - 2 := by
  obtain ⟨nodes, ok, w, run⟩ := exec_build hp h1 hN
  cases run.symm.trans h
  exact ⟨ok, w, Nat.mod_eq_of_lt (by omega)⟩

/-- Settles O31: the finished merge is a tree of ALPHA. -/
theorem buildMakesTheTree : Obligations.BuildMakesTheTree := by
  intro s hp h1 hN
  obtain ⟨nodes, -, w, run⟩ := exec_build hp h1 hN
  exact ⟨nodes, w.treeWf h1, run⟩

/-- Settles O32: the invariant says that no queued node sorts before the two taken; with distinct symbols no two nodes
are tied, so those two sort before the others. -/
theorem eachMergeTakesTheTwoFirst : Obligations.EachMergeTakesTheTwoFirst := by
  intro s t hp h1 hN distinct run m hm
  obtain ⟨-, w, -⟩ := built_of_exec hp h1 hN run
  obtain ⟨f, l, r, node, freq, hl, hr, hlr, leastL, leastR⟩ := w.merges m (by omega)
  have made : s.n + m < t.node.length := (List.getElem?_eq_some_iff.1 node).1
  have exact_sum : f = freqAt t.node l.toNat + freqAt t.node r.toNat := by
    apply BitVec.eq_of_toNat_eq
    rw [BitVec.toNat_add, ← freq, Nat.mod_eq_of_lt f.isLt]
  have strict : ∀ {i c}, InQueue t.node (s.n + m) i → InQueue t.node (s.n + m) c → c ≠ i →
      beforeAt t.node c i = false → beforeAt t.node i c = true := fun hi hc hne =>
    w.total distinct hN (hi.1.trans made) (hc.1.trans made) hne.symm
  exact ⟨f, l, r, node, exact_sum, hl, hr, fun e => hlr (congrArg BitVec.toNat e),
    fun c hc hcl => strict hl hc hcl (leastL c hc), fun c hc hcl hcr => strict hr hc hcr (leastR c hc hcl)⟩

/-- Settles O33: the merges keep the sum over the queue, and at the end the root is alone in it. -/
theorem rootHoldsTheTotal : Obligations.RootHoldsTheTotal := by
  intro s t hp h1 hN run
  obtain ⟨-, w, root⟩ := built_of_exec hp h1 hN run
  rw [root, ← w.sum]
  simp [freqSum]

/-! ### The order of the loads (R138) -/

/-- Where the entry at an index stands in a permuted alphabet; the indices past the alphabet stay. -/
def renumber (alpha alpha' : List AlphaEntry) (i : Nat) : Nat :=
  match alpha[i]? with
  | some e => alpha'.idxOf e
  | none => i

theorem renumber_of_some {alpha alpha' : List AlphaEntry} {i : Nat} {e : AlphaEntry} (h : alpha[i]? = some e) :
    renumber alpha alpha' i = alpha'.idxOf e := by
  simp [renumber, h]

theorem renumber_of_le {alpha alpha' : List AlphaEntry} {i : Nat} (h : alpha.length ≤ i) :
    renumber alpha alpha' i = i := by
  simp [renumber, h]

section
variable {alpha alpha' : List AlphaEntry} (hperm : alpha.Perm alpha')
include hperm

theorem getElem?_renumber {i : Nat} {e : AlphaEntry} (h : alpha[i]? = some e) :
    alpha'[renumber alpha alpha' i]? = some e := by
  rw [renumber_of_some h]
  exact List.getElem?_idxOf (hperm.subset (List.mem_of_getElem? h))

theorem renumber_lt {i : Nat} (h : i < alpha.length) : renumber alpha alpha' i < alpha.length := by
  rw [hperm.length_eq]
  exact (List.getElem?_eq_some_iff.1 (getElem?_renumber hperm (List.getElem?_eq_getElem h))).1

theorem renumber_injective (distinct : alpha.Nodup) : Function.Injective (renumber alpha alpha') := by
  intro i j hij
  by_cases hi : i < alpha.length <;> by_cases hj : j < alpha.length
  · have ei := getElem?_renumber hperm (List.getElem?_eq_getElem hi)
    have ej := getElem?_renumber hperm (List.getElem?_eq_getElem hj)
    rw [hij, ej] at ei
    exact (distinct.getElem_inj_iff.1 (Option.some.inj ei)).symm
  · have := renumber_lt hperm hi
    rw [hij, renumber_of_le (by omega)] at this
    omega
  · have := renumber_lt hperm hj
    rw [← hij, renumber_of_le (by omega)] at this
    omega
  · rwa [renumber_of_le (by omega), renumber_of_le (by omega)] at hij

/-- The queue of all leaves, renumbered, is the queue of all leaves. -/
theorem range_perm_renumber (distinct : alpha.Nodup) :
    (List.range alpha'.length).Perm ((List.range alpha.length).map (renumber alpha alpha')) := by
  have nodup := List.nodup_range (n := alpha.length) |>.map (renumber_injective hperm distinct)
  refine (List.Subperm.perm_of_length_le (nodup.subperm ?_) (by simp [hperm.length_eq])).symm
  intro k hk
  obtain ⟨i, hi, rfl⟩ := List.mem_map.1 hk
  exact List.mem_range.2 (hperm.length_eq ▸ renumber_lt hperm (List.mem_range.1 hi))

theorem relabels_leaves : Relabels (renumber alpha alpha') (leaves alpha) (leaves alpha') where
  len := by simp [hperm.length_eq]
  at_ i x hx := by
    obtain ⟨e, he, rfl⟩ : ∃ e, alpha[i]? = some e ∧ Node.leaf (e.freq.setWidth 48) e.sym = x := by
      simpa [leaves] using hx
    simp [leaves, getElem?_renumber hperm he, Node.relabel]

/-- BUILD of a permuted alphabet makes the nodes with their indices renumbered. -/
theorem relabels_buildNodes (h1 : 1 ≤ alpha.length) (hN : alpha.length ≤ 32768)
    (distinct : (alpha.map AlphaEntry.sym).Nodup) {nodes nodes' : List Node} (h : buildNodes alpha = .ok nodes)
    (h' : buildNodes alpha' = .ok nodes') : Relabels (renumber alpha alpha') nodes nodes' := by
  have entries : alpha.Nodup := distinct.of_map
  obtain ⟨out, out', e, e', relabels⟩ := mergeLoop_relabel hN distinct (renumber_injective hperm entries)
    (fun _ => renumber_of_le) _ _ _ _ _ _ (.start h1) (relabels_leaves hperm) (range_perm_renumber hperm entries)
  rw [buildNodes] at h h'
  rw [hperm.length_eq] at e e'
  rw [hperm.length_eq] at h
  cases h.symm.trans e
  cases h'.symm.trans e'
  exact relabels

end

/-- Settles O34: the renumbering sends each leaf to the place of its entry and leaves the internal nodes in place. -/
theorem loadOrderDoesNotShapeTheTree : Obligations.LoadOrderDoesNotShapeTheTree := by
  intro s t t' alpha' hp h1 hN distinct hperm run run'
  have hn : s.n = State.n { s with alpha := alpha' } := hperm.length_eq
  obtain ⟨ok, -⟩ := built_of_exec hp h1 hN run
  obtain ⟨ok', -⟩ := built_of_exec (s := { s with alpha := alpha' }) hp (hn ▸ h1) (hn ▸ hN) run'
  have relabels := relabels_buildNodes hperm h1 hN distinct ok ok'
  refine ⟨renumber s.alpha alpha', fun i e => getElem?_renumber hperm, fun i => renumber_of_le, ?_⟩
  intro m f q l r node
  have moved := relabels.at_ _ _ node
  rwa [renumber_of_le (show s.n ≤ s.n + m by omega)] at moved

/-! ### The structural checks (R136, R163, R224) -/

theorem PhaseInv.faultCause_ne_errInvariant {s : State} (h : PhaseInv s) : s.faultCause ≠ .errInvariant := by
  by_cases hp : s.phase = .fault
  · rcases h.causes hp with hc | hc | hc <;> simp [hc]
  · simp [h.faultCause_eq_none hp]

theorem BodyReject.error_ne_errInvariant {i : Instr} {s : State} {e : ErrCode} (h : BodyReject s i e) :
    e ≠ .errInvariant := by
  cases h <;> exact nofun

/-- Settles O56: the state a command leaves meets the invariant, which shuts ERR_INVARIANT out of FAULT_CAUSE; and
LAST_ERR is the error of the command's end, which is never that one. -/
theorem structuralChecksNeverFire : Obligations.StructuralChecksNeverFire := by
  intro i s t hs run
  refine ⟨?_, (hs.exec run).phase.faultCause_ne_errInvariant⟩
  rcases exec_cases run with ⟨-, rfl⟩ | ⟨hl, ⟨u, d0, d1, -, rfl⟩ | ⟨e, hb, rfl⟩ | ⟨e, u, hb, rfl⟩⟩
  · exact nofun
  · exact nofun
  · exact (body_reject hb).error_ne_errInvariant
  · exact (body_fatal hb).error_ne_errInvariant hl hs.toBlockInv

/-! ### LOAD_SYM and the reads (R130, R131, R139) -/

/-- Settles O26: the three clauses are the three ends of its body, and no two hold at once. -/
theorem loadSymAppendsTheEntry : Obligations.LoadSymAppendsTheEntry := by
  intro s sym freq hp
  rw [exec_of_legal ((legal_iff (.loadSym sym freq) s).2 hp), bodyOf]
  obtain ⟨full, body⟩ | ⟨room, dup, body⟩ | ⟨room, fresh, body⟩ := bodyLoadSym_cases sym freq s <;> rw [body]
  · exact ⟨fun _ => rfl, fun room => absurd full room, fun room => absurd full room⟩
  · exact ⟨fun full => absurd full room, fun _ _ => rfl,
      fun _ fresh => dup.elim fun e he => absurd he.2 (fresh e he.1)⟩
  · exact ⟨fun full => absurd full room, fun _ dup => dup.elim fun e he => absurd he.2 (fresh e he.1), fun _ _ => rfl⟩

/-- Settles O27: ALPHA holds exactly the entries below N. -/
theorem readAlphaReturnsTheEntry : Obligations.ReadAlphaReturnsTheEntry := by
  intro s k
  rw [exec_of_legal rfl, bodyOf, bodyReadAlpha]
  constructor
  · intro h
    rw [List.getElem?_eq_getElem h]
    rfl
  · intro h
    rw [List.getElem?_eq_none h]
    rfl

/-- READ_NODE of an entry that holds a value. -/
theorem exec_readNode {s : State} {i : Val} {x : Node} (hv : s.treeValid = true) (hi : i.toNat < 2 * s.n - 1)
    (hx : s.node[i.toNat]? = some x) :
    exec (.readNode i) s = .next (s.complete (x.freq.setWidth 64) x.layout) := by
  rw [exec_of_legal ((legal_iff (.readNode i) s).2 hv), bodyOf, bodyReadNode, if_neg (by omega), hx]
  rfl

/-- Settles O35: the layout word of an internal node is the number stated. -/
theorem readNodeReturnsTheNode : Obligations.ReadNodeReturnsTheNode := by
  intro s i hv
  refine ⟨fun f sym hi hx => exec_readNode hv hi hx, fun f q l r hi hx => ?_, fun hi => ?_⟩
  · rw [exec_readNode hv hi hx, ← layout_internal_toNat f, BitVec.ofNat_toNat, BitVec.setWidth_eq]
    rfl
  · rw [exec_of_legal ((legal_iff (.readNode i) s).2 hv), bodyOf, bodyReadNode, if_pos hi]
    rfl

/-! ### The order of the merge (R132, R133) -/

/-- Settles O28: two frequencies that are not equal decide, and equal ones leave it to the kind, then to the symbols or
the sequence ids. -/
theorem beforeIsTheStatedOrder : Obligations.BeforeIsTheStatedOrder := by
  intro f g a b p q l r l' r'
  simp only [before, Node.freq, Bool.or_eq_true, Bool.and_eq_true, decide_eq_true_eq, beq_iff_eq, BitVec.lt_def,
    ← BitVec.toNat_inj, Bool.false_eq_true, and_false, or_false, and_true, true_and]
  exact Nat.le_iff_lt_or_eq.symm

theorem before_asymm {x y : Node} (h : before x y = true) : before y x = false := by
  by_contra hc
  have := before_trans h (Bool.eq_true_of_not_eq_false hc)
  rw [before_irrefl] at this
  cases this

/-- Settles O29: the order is total on such nodes, and irreflexive and transitive, so never both ways. -/
theorem beforeIsAStrictTotalOrder : Obligations.BeforeIsAStrictTotalOrder := by
  refine ⟨fun x y h => ?_, fun x y z => before_trans, before_irrefl⟩
  rcases before_total (x := x) (y := y) h with hb | hb
  · exact .inl ⟨hb, before_asymm hb⟩
  · exact .inr ⟨before_asymm hb, hb⟩

end Sys2Proof.Machine

/-! PROOFS. The code-table generator (42_code_table_gen.md R160 to R164).  `CodesOf` (Laws/Codes.lean) says what the
traversal of a tree leaves in CODE; the statements about DERIVE are read off it. -/

namespace Sys2Proof.Machine

/-! ### What DERIVE leaves (R160, R161, R162) -/

/-- DERIVE in BUILT completes with the table that its body has made. -/
theorem exec_derive {s : State} {table : List Code} (hp : s.phase = .built)
    (body : bodyDerive s = .done { s with code := table, codesValid := true, phase := .coded } 0#64 0#64) :
    exec .derive s = .next ({ s with code := table, codesValid := true, phase := .coded }.complete 0#64 0#64) := by
  rw [exec_of_legal ((legal_iff .derive s).2 hp), bodyOf, body, finishCommand]

/-- On a tree of two symbols or more DERIVE completes, with the paths to the leaves as its codes. -/
theorem exec_derive_tree {s : State} (hp : s.phase = .built) (h2 : 2 ≤ s.n) (ht : TreeWf s.alpha s.node)
    (hr : s.root.toNat = 2 * s.n - 2) :
    ∃ table, CodesOf s.alpha s.node table ∧
      exec .derive s = .next ({ s with code := table, codesValid := true, phase := .coded }.complete 0#64 0#64) := by
  obtain ⟨h1, -⟩ | ⟨-, table, -, codes, body⟩ := bodyDerive_cases s (by omega) ht hr
  · omega
  · exact ⟨table, codes, exec_derive hp body⟩

/-- The same, read off the state that DERIVE answers. -/
theorem codesOf_of_exec {s t : State} (hp : s.phase = .built) (h2 : 2 ≤ s.n) (ht : TreeWf s.alpha s.node)
    (hr : s.root.toNat = 2 * s.n - 2) (h : exec .derive s = .next t) : CodesOf s.alpha s.node t.code := by
  obtain ⟨table, codes, run⟩ := exec_derive_tree hp h2 ht hr
  cases run.symm.trans h
  exact codes

/-- Settles O36: one symbol is the first branch of the body. -/
theorem deriveOfOneSymbol : Obligations.DeriveOfOneSymbol := by
  intro s hp h1
  exact exec_derive hp (by rw [bodyDerive, if_pos h1])

/-- Settles O37: ROOT is the last node of the arena, where the traversal's paths begin. -/
theorem deriveGivesThePaths : Obligations.DeriveGivesThePaths := by
  intro s hp h2 ht hr
  obtain ⟨table, codes, run⟩ := exec_derive_tree hp h2 ht hr
  have root : s.root.toNat = s.node.length - 1 := by rw [hr, ht.size, State.n]; omega
  refine ⟨table, run, codes.size, fun k hk => ?_⟩
  obtain ⟨c, entry, nonempty, short, path⟩ := codes.path k hk
  exact ⟨c, entry, nonempty, Nat.le_sub_one_of_lt short, root ▸ path⟩

/-- Settles O38: the paths to two leaves do not begin one another. -/
theorem codesArePrefixFree : Obligations.CodesArePrefixFree := by
  intro s t hp h2 ht hr run
  exact (codesOf_of_exec hp h2 ht hr run).free ht

/-- Settles O39: each visit of the traversal keeps the Kraft sum of the stack and the table, and at the end the stack is
empty. -/
theorem kraftSumIsOne : Obligations.KraftSumIsOne := by
  intro s t hp h2 ht hr run
  exact (codesOf_of_exec hp h2 ht hr run).kraft

/-! ### READ_CODE (R164) -/

/-- READ_CODE of an entry that holds a code. -/
theorem exec_readCode {s : State} {k : Val} {w : BitVec 21} {e : AlphaEntry} {c : Code} (hv : s.codesValid = true)
    (he : s.alpha[k.toNat]? = some e) (hc : s.code[k.toNat]? = some c) (hw : w.toNat < wMax s.params) :
    exec (.readCode k w) s = .next (s.complete (codeWord c w.toNat) (codeInfo e.sym c)) := by
  have hk : k.toNat < s.n := (List.getElem?_eq_some_iff.1 he).1
  rw [exec_of_legal ((legal_iff (.readCode k w) s).2 hv), bodyOf, bodyReadCode, if_neg (by omega), he, hc]
  rfl

/-- Settles O40: the two data words are `codeWord` and `codeInfo`, known bit by bit and as a number. -/
theorem readCodeReturnsTheCode : Obligations.ReadCodeReturnsTheCode := by
  intro s k w hv
  refine ⟨fun e c he hc hw => ⟨codeWord c w.toNat, fun j => codeWord_bit c w.toNat j, ?_⟩, fun out => ?_⟩
  · rw [exec_readCode hv he hc hw, ← codeInfo_toNat, BitVec.ofNat_toNat, BitVec.setWidth_eq]
  · have body : bodyReadCode k w s = .reject .errRange := if_pos out
    rw [exec_of_legal ((legal_iff (.readCode k w) s).2 hv), bodyOf, body, finishCommand]

end Sys2Proof.Machine

/-! PROOFS. The bit packer (43_bit_packer.md R180 to R190).  AppendBit and FlushBuf are given case by case; what a whole
ENCODE or FINISH does is then read off `PackStep` and `Issues` (Laws/Packing.lean, Laws/Sink.lean), and the writes of a
run off the predicate that all of them so far were full buffers. -/

namespace Sys2Proof.Machine

/-! ### SET_BUFSIZE (R180) -/

/-- Settles O41: the two ends of the body are the two ranges of R180. -/
theorem setBufsizeSetsTheSize : Obligations.SetBufsizeSetsTheSize := by
  intro s size hp
  rw [exec_of_legal ((legal_iff (.setBufsize size) s).2 hp), bodyOf]
  obtain ⟨bad, body⟩ | ⟨h1, h2, body⟩ := bodySetBufsize_cases size s <;> rw [body, finishCommand]
  · have bad : size.toNat = 0 ∨ s.params.bufMax.toNat < size.toNat := bad.imp_left fun h => by rw [h]; rfl
    exact ⟨fun ok => by omega, fun _ => rfl⟩
  · have h1 : 1 ≤ size.toNat := by simpa [BitVec.le_def] using h1
    have h2 : size.toNat ≤ s.params.bufMax.toNat := h2
    exact ⟨fun _ => rfl, fun bad => by omega⟩

/-! ### AppendBit and FlushBuf (R182, R183) -/

/-- FlushBuf with the answer OK. -/
theorem flushBuf_ok {s : State} {rest : AckScript} (h : s.ackScript.answer = some (.ok, rest)) :
    flushBuf s = .ok { s with
      ackScript := rest, sink := s.sink ++ [⟨s.obuf, some .ok⟩]
      bytesOut := s.bytesOut + BitVec.ofNat 64 s.obuf.length, writes := s.writes + 1#64, obuf := [] } := by
  simp only [flushBuf, h]

/-- FlushBuf with the answer FAIL. -/
theorem flushBuf_fail {s : State} {rest : AckScript} (h : s.ackScript.answer = some (.fail, rest)) :
    flushBuf s = .ioFail { s with ackScript := rest, sink := s.sink ++ [⟨s.obuf, some .fail⟩] } := by
  simp only [flushBuf, h]

/-- FlushBuf with no answer. -/
theorem flushBuf_hang {s : State} (h : s.ackScript.answer = none) : flushBuf s = .hang s := by
  simp only [flushBuf, h]

/-- Settles O43: one equation for each answer of the sink. -/
theorem flushBufWritesTheBuffer : Obligations.FlushBufWritesTheBuffer :=
  fun _ _ => ⟨flushBuf_ok, flushBuf_fail, flushBuf_hang⟩

/-- Shifting a bit in doubles ACC and adds the bit, modulo 2^8. -/
theorem shiftIn_eq_ofNat (acc : Byte) (b : Bool) : shiftIn acc b = BitVec.ofNat 8 (2 * acc.toNat + b.toNat) := by
  have disjoint : acc <<< 1 &&& (BitVec.ofBool b).setWidth 8 = 0#8 := by
    ext i hi
    rcases i with _ | i <;> simp
  rw [shiftIn, ← BitVec.add_eq_or_of_and_eq_zero _ _ disjoint]
  apply BitVec.eq_of_toNat_eq
  cases b <;> simp [Nat.shiftLeft_eq, Nat.mul_comm]

/-- Below 7 bits, AppendBit only puts the bit in. -/
theorem appendBit_of_ne {s : State} {b : Bool} (h : s.accN ≠ 7) : appendBit s b = .ok (bitIn s b) := by
  rw [appendBit_eq, if_neg fun hf => h hf.1]

theorem bitIn_of_ne {s : State} {b : Bool} (h : s.accN ≠ 7) :
    bitIn s b = { s with acc := shiftIn s.acc b, accN := s.accN + 1, bitsIn := s.bitsIn + 1#64 } :=
  if_neg h

theorem bitIn_of_eq {s : State} {b : Bool} (h : s.accN = 7) : bitIn s b =
    { s with acc := 0#8, accN := 0, bitsIn := s.bitsIn + 1#64, obuf := s.obuf ++ [shiftIn s.acc b] } :=
  if_pos h

/-- Settles O42: the bit is put in (`bitIn`), and the flush comes only at 7 bits, when it filled the buffer. -/
theorem appendBitIsTheStatedPacking : Obligations.AppendBitIsTheStatedPacking := by
  intro s b
  rw [← shiftIn_eq_ofNat]
  refine ⟨fun below => ?_, fun at7 => ?_⟩
  · have hn : s.accN ≠ 7 := fun h => by simp [h] at below
    exact ⟨s.accN + 1, accN_succ_val hn, by rw [appendBit_of_ne hn, bitIn_of_ne hn]⟩
  · have hn : s.accN = 7 := Fin.ext at7
    rw [appendBit_eq, bitIn_of_eq hn]
    simp only [hn, true_and]


/-! ### ENCODE (R181, R183) -/

/-- What a packing command that completes leaves, as one equation: the packer, the sink and the response change. -/
theorem SameOutsidePacker.complete_eq {s t : State} (h : SameOutsidePacker s t) (d0 d1 : Word) :
    t.complete d0 d1 = { s with
      lastErr := .errNone, acc := t.acc, accN := t.accN, obuf := t.obuf, bitsIn := t.bitsIn, bytesOut := t.bytesOut
      writes := t.writes, ackScript := t.ackScript, sink := t.sink
      responses := s.responses ++ [⟨(t.complete d0 d1).status, d0, d1⟩], pos := s.pos + 1 } := by
  obtain ⟨⟩ := t
  obtain ⟨⟩ := h
  subst_vars
  rfl

theorem okCount_of_forall_ok {ws : List SinkWrite} (h : ∀ w ∈ ws, w.ack = some .ok) : okCount ws = ws.length :=
  List.countP_eq_length.2 (by simpa using h)

/-- Packing all the bits of a code: the stream and the counters grow by the code and by the writes, all acknowledged OK
(R36, R182). -/
theorem appendBits_ok {s t : State} {c : Code} (hr : s.runStart ≤ s.sink.length) (ht : appendBits s c = .ok t) :
    t.stream = s.stream ++ c ∧ t.bitsIn = s.bitsIn + BitVec.ofNat 64 c.length ∧
    ∃ new, t.sink = s.sink ++ new ∧ (∀ w ∈ new, w.ack = some .ok) ∧
      t.bytesOut = s.bytesOut + BitVec.ofNat 64 (okBytes new).length ∧
      t.writes = s.writes + BitVec.ofNat 64 new.length := by
  obtain ⟨j, -, stream, bits, all⟩ := appendBits_stream c s hr
  obtain ⟨new, xs, issued, -⟩ := appendBits_issues c s
  obtain ⟨new', sink, bytes, writes⟩ := (PackStep.of_appendBits ht).grows
  rw [ht] at stream bits issued
  rw [all t ht] at stream bits
  have same : new' = new := List.append_cancel_left (sink.symm.trans issued.sink)
  subst same
  rw [List.take_length] at stream
  refine ⟨stream, bits, new', sink, issued.outcome, bytes, ?_⟩
  rw [← okCount_of_forall_ok issued.outcome]
  exact writes

/-- Settles O44: with every write answered OK the packing goes on through the whole code, and `PackStep` is its frame. -/
theorem encodeAppendsTheCode : Obligations.EncodeAppendsTheCode := by
  intro s k e c hp distinct hk hc ok hr
  obtain ⟨t, ht, -, run⟩ := exec_encode_allOk hp ok (codeOf_eq distinct hk hc)
  obtain ⟨stream, bits, new, sink, acks, bytes, writes⟩ := appendBits_ok (s := { s with phase := .encoding }) hr ht
  have same : SameOutsidePacker { s with phase := .encoding } t := (PackStep.of_appendBits ht).same
  have phase : t.phase = .encoding := same.phase
  refine ⟨_, new, run, phase, rfl, stream, bits, sink, acks, bytes, writes, ?_⟩
  rw [State.complete_phase, phase]
  exact same.complete_eq _ _

theorem appendBits_cons_of_ok {s t : State} {b : Bool} {c : Code} (h : appendBit s b = .ok t) :
    appendBits s (b :: c) = appendBits t c := by
  simp only [appendBits, h]

theorem appendBits_cons_of_ioFail {s t : State} {b : Bool} {c : Code} (h : appendBit s b = .ioFail t) :
    appendBits s (b :: c) = .ioFail t := by
  simp only [appendBits, h]

/-- A code that fills the last byte of room meets the answer FAIL: packing stops at that byte, with the counters of
writes as they were (R182, R183). -/
theorem appendBits_ioFail {s : State} {rest : AckScript} {c : Code} (room : s.obuf.length + 1 = s.bufSize.toNat)
    (long : 8 ≤ s.accN.val + c.length) (fail : s.ackScript.answer = some (.fail, rest)) :
    ∃ t, appendBits s c = .ioFail t ∧ t.bitsIn = s.bitsIn + BitVec.ofNat 64 (8 - s.accN.val) ∧
      t.bytesOut = s.bytesOut ∧ t.writes = s.writes ∧ t.sink = s.sink ++ [⟨t.obuf, some .fail⟩] := by
  induction c generalizing s with
  | nil =>
    have := s.accN.isLt
    simp at long
    omega
  | cons b c ih =>
    by_cases h7 : s.accN = 7
    · have full : (bitIn s b).obuf.length = s.bufSize.toNat := by simpa [bitIn_of_eq h7] using room
      have flush : appendBit s b = flushBuf (bitIn s b) := by rw [appendBit_eq, if_pos ⟨h7, full⟩]
      refine ⟨_, appendBits_cons_of_ioFail (flush.trans (flushBuf_fail (by rwa [bitIn_ackScript]))), ?_⟩
      simp [h7]
    · have accN : (bitIn s b).accN.val = s.accN.val + 1 := by rw [bitIn_of_ne h7, accN_succ_val h7]
      obtain ⟨t, ht, bits, bytes, writes, sink⟩ := ih (s := bitIn s b) (by simpa [bitIn_of_ne h7] using room)
        (by rw [accN]; simp at long; omega) (by rwa [bitIn_ackScript])
      simp only [bitIn_bitsIn, bitIn_bytesOut, bitIn_writes, bitIn_sink] at bits bytes writes sink
      refine ⟨t, (appendBits_cons_of_ok (appendBit_of_ne h7)).trans ht, ?_, bytes, writes, sink⟩
      have left : 8 - s.accN.val = 1 + (8 - (s.accN.val + 1)) := by have := accN ▸ (bitIn s b).accN.isLt; omega
      rw [bits, accN, left, BitVec.ofNat_add, BitVec.add_assoc]

/-- Settles O47: the body's packing stops at the byte that fills the buffer, which is the fatal error ERR_IO. -/
theorem encodeFaultsWhenTheWriteFails : Obligations.EncodeFaultsWhenTheWriteFails := by
  intro s rest k e c hp distinct hk hc room long fail
  obtain ⟨t, ht, bits, bytes, writes, sink⟩ := appendBits_ioFail (s := { s with phase := .encoding }) room long fail
  have body : bodyEncode e.sym s = .fatal .errIo t := by
    simp only [bodyEncode, codeOf_eq distinct hk hc, ht, packed]
  refine ⟨t.takeFatal .errIo, ?_, rfl, rfl, rfl, bits, bytes, writes, sink⟩
  rw [exec_of_legal ((legal_iff (.encode e.sym) s).2 hp), bodyOf, body, finishCommand]


/-! ### FINISH (R184, R186) -/

/-- OBUF with the partial byte, if there is one, padded with zero bits. -/
def paddedObuf (s : State) : List Byte :=
  if s.accN.val = 0 then s.obuf else s.obuf ++ [BitVec.ofNat 8 (2 ^ (8 - s.accN.val) * s.acc.toNat)]

/-- Padding a partial byte is a shift of ACC to the left. -/
theorem shiftLeft_eq_ofNat (acc : Byte) (n : Nat) : acc <<< n = BitVec.ofNat 8 (2 ^ n * acc.toNat) := by
  apply BitVec.eq_of_toNat_eq
  simp [Nat.shiftLeft_eq, Nat.mul_comm]

/-- What FINISH's pad does to each element. -/
theorem padLastByte_eq (s : State) : padLastByte s =
    { s with acc := if s.accN.val = 0 then s.acc else 0#8, accN := 0, obuf := paddedObuf s } := by
  unfold padLastByte paddedObuf
  by_cases h : s.accN = 0
  · have h0 : s.accN.val = 0 := by rw [h]; rfl
    rw [if_pos h, if_pos h0, if_pos h0, ← h]
  · have h0 : s.accN.val ≠ 0 := fun h0 => h (Fin.ext h0)
    rw [if_neg h, if_neg h0, if_neg h0, shiftLeft_eq_ofNat]

/-- The command around FINISH's packing (R110, R184). -/
theorem exec_finish {s : State} (hp : s.phase = .coded ∨ s.phase = .encoding) :
    exec .finish s = finishCommand s (packed (flushRest (padLastByte s)) fun t => { t with phase := .done }) :=
  exec_of_legal ((legal_iff .finish s).2 hp)

/-- With nothing left to write, there was no partial byte to pad. -/
theorem padLastByte_of_nil {s : State} (h : paddedObuf s = []) : padLastByte s = s ∧ s.obuf = [] := by
  unfold paddedObuf at h
  split at h
  · next h0 => exact ⟨if_pos (Fin.ext h0), h⟩
  · simp at h

/-- Settles O48: the pad and the flush are each given by one equation, and what they end in is what FINISH ends in. -/
theorem finishWritesWhatRemains : Obligations.FinishWritesWhatRemains := by
  intro s hp
  rw [exec_finish hp]
  change (paddedObuf s = [] → _) ∧ (∀ rest, paddedObuf s ≠ [] → _) ∧ (∀ rest, paddedObuf s ≠ [] → _) ∧
    (paddedObuf s ≠ [] → _)
  have flush (hne : paddedObuf s ≠ []) : flushRest (padLastByte s) = flushBuf (padLastByte s) := by
    rw [flushRest, if_neg (by rwa [padLastByte_eq])]
  refine ⟨fun h => ?_, fun rest hne ok => ?_, fun rest hne fail => ?_, fun hne silent => ?_⟩
  · obtain ⟨pad, obuf⟩ := padLastByte_of_nil h
    rw [pad, flushRest, if_pos obuf]
    rfl
  · rw [flush hne, flushBuf_ok (by rwa [padLastByte_ackScript]), padLastByte_eq]
    rfl
  · rw [flush hne, flushBuf_fail (by rwa [padLastByte_ackScript]), padLastByte_eq]
    rfl
  · rw [flush hne, flushBuf_hang (by rwa [padLastByte_ackScript])]
    exact ⟨_, rfl⟩

/-- Bits padded with fewer than 8 zero bits to whole bytes are as many bytes as their number divided by 8, rounded
up. -/
theorem length_of_padded {bytes : List Byte} {bits : List Bool} {pad : Nat} (hpad : pad < 8)
    (h : bytesBits bytes = bits ++ List.replicate pad false) : bytes.length = (bits.length + 7) / 8 := by
  have len := congrArg List.length h
  simp only [bytesBits_length, List.length_append, List.length_replicate] at len
  omega

/-- FINISH ends in DONE only by its packing going on to the end. -/
theorem finish_of_done {s t : State} (hp : s.phase = .coded ∨ s.phase = .encoding) (h : exec .finish s = .next t)
    (hd : t.phase = .done) :
    ∃ u, flushRest (padLastByte s) = .ok u ∧ t = { u with phase := .done }.complete 0#64 0#64 := by
  rw [exec_finish hp] at h
  cases hr : flushRest (padLastByte s) with
  | ok u => rw [hr] at h; cases h; exact ⟨u, rfl, rfl⟩
  | ioFail u => rw [hr] at h; cases h; cases hd
  | hang u => rw [hr] at h; cases h

/-- Settles O49: FINISH in DONE has written all of the padded stream (`finish_output`). -/
theorem finishOutputIsThePaddedStream : Obligations.FinishOutputIsThePaddedStream := by
  intro s t hp hr h hd
  obtain ⟨u, hu, rfl⟩ := finish_of_done hp h hd
  obtain ⟨pad, hpad, out⟩ := finish_output hr hu
  exact ⟨pad, hpad, out, length_of_padded hpad out⟩

/-! ### What a run's end says of the sink (R65, R74, R188) -/

/-- In DONE nothing is left in OBUF and ACC, so the output is the whole bitstream (R184). -/
theorem PackInv.stream_of_done {s : State} (h : PackInv s) (hd : s.phase = .done) :
    s.stream = bytesBits s.output := by
  obtain ⟨accN, obuf⟩ := h.done hd
  simp [State.stream, accN, obuf]

/-- In a run that has not failed at most BUF_SIZE - 1 bytes and 7 bits are unwritten (R34, R35). -/
theorem PackInv.stream_unwritten {s : State} (h : PackInv s) (hf : s.phase ≠ .fault) :
    ∃ unwritten, s.stream = bytesBits s.output ++ unwritten ∧ unwritten.length ≤ 8 * (s.bufSize.toNat - 1) + 7 := by
  obtain ⟨rest, stream, len⟩ := Machine.stream_unwritten s
  have room := h.room hf
  exact ⟨rest, stream, by omega⟩

/-- Settles O50: the invariant holds after the step, and it ties the run's last response to the phase. -/
theorem successMeansTheSinkHoldsTheOutput : Obligations.SuccessMeansTheSinkHoldsTheOutput := by
  intro s t hs hstep
  have h := everyStepKeepsTheInvariant s t hs hstep
  have succeeded : t.runSucceeded = true ↔ t.phase = .done := h.run.runShows_iff nofun
  have failed : t.runFailed = true ↔ t.phase = .fault := h.run.runShows_iff nofun
  refine ⟨succeeded, failed, fun done => ?_, fun _ running => ?_⟩
  · have hd := succeeded.1 done
    exact ⟨h.pack.stream_of_done hd, fun contents may => may.2 (h.log.clean (by simp [hd]))⟩
  · exact h.pack.stream_unwritten fun hf => by simp [failed.2 hf] at running


/-! ### The lengths of a run's writes (R190) -/

/-- The lengths of `total` bytes cut into chunks of `size`, with a short last one if there is a remainder. -/
def chunkLengths (size total : Nat) : List Nat :=
  List.replicate (total / size) size ++ if total % size = 0 then [] else [total % size]

/-- Full chunks and one more, of what is left: that may be nothing, and it may be a full chunk itself. -/
theorem chunkLengths_mul_add {size m rest : Nat} (hs : 0 < size) (hr : rest ≤ size) :
    chunkLengths size (size * m + rest) = List.replicate m size ++ if rest = 0 then [] else [rest] := by
  unfold chunkLengths
  rw [Nat.mul_add_div hs, Nat.mul_add_mod]
  rcases hr.lt_or_eq with h | rfl
  · rw [Nat.div_eq_of_lt h, Nat.mod_eq_of_lt h, Nat.add_zero]
  · rw [Nat.div_self hs, Nat.mod_self, if_pos rfl, if_neg hs.ne', List.append_nil, List.replicate_succ']

/-- Every write of the run so far was of a full buffer. -/
def FullWrites (s : State) : Prop := ∀ w ∈ s.runWrites, w.bytes.length = s.bufSize.toNat

/-- ENCODE leaves BUF_SIZE and the start of the run. -/
theorem exec_encode_frame {sym : Sym} {s t : State} (h : exec (.encode sym) s = .next t) :
    t.bufSize = s.bufSize ∧ t.runStart = s.runStart := by
  rcases exec_cases h with ⟨-, rfl⟩ | ⟨-, ⟨u, d0, d1, hb, rfl⟩ | ⟨e, -, rfl⟩ | ⟨e, u, hb, rfl⟩⟩
  · exact ⟨rfl, rfl⟩
  · cases body_done hb with
    | read => exact ⟨rfl, rfl⟩
    | encode _ hr => exact ⟨(PackStep.of_appendBits hr).same.bufSize, (PackStep.of_appendBits hr).same.runStart⟩
  · exact ⟨rfl, rfl⟩
  · cases body_fatal hb with
    | nocode => exact ⟨rfl, rfl⟩
    | encodeIo _ hr => exact ⟨(PackStep.of_appendBits hr).same.bufSize, (PackStep.of_appendBits hr).same.runStart⟩

/-- ENCODE writes full buffers only (R190). -/
theorem FullWrites.encode {sym : Sym} {s t : State} (h : FullWrites s) (hr : s.runStart ≤ s.sink.length)
    (he : exec (.encode sym) s = .next t) : FullWrites t := by
  obtain ⟨new, sink, len⟩ := exec_encode_writes he
  obtain ⟨bufSize, runStart⟩ := exec_encode_frame he
  intro w hw
  rw [(output_of_sink hr runStart sink).1] at hw
  rw [bufSize]
  exact (List.mem_append.1 hw).elim (h w) (len w)

/-- So does a text of ENCODEs. -/
theorem FullWrites.text {text : List Sym} {s t : State} (h : FullWrites s) (hs : Machine.Inv s)
    (hrun : runCommands (text.map .encode) s = .next t) : FullWrites t ∧ t.bufSize = s.bufSize := by
  induction text generalizing s with
  | nil => cases hrun; exact ⟨h, rfl⟩
  | cons sym text ih =>
    simp only [List.map_cons, runCommands] at hrun
    cases he : exec (.encode sym) s with
    | next u =>
      rw [he] at hrun
      obtain ⟨full, size⟩ := ih (h.encode hs.log.run he) (hs.exec he) hrun
      exact ⟨full, size.trans (exec_encode_frame he).1⟩
    | fault f => rw [he] at hrun; cases hrun
    | refused r => rw [he] at hrun; cases hrun

/-- Commands after a run that has answered each of its own. -/
theorem runCommands_append {xs ys : List Instr} {s t : State} (h : runCommands xs s = .next t) :
    runCommands (xs ++ ys) s = runCommands ys t := by
  induction xs generalizing s with
  | nil => cases h; rfl
  | cons i xs ih =>
    simp only [List.cons_append, runCommands] at h ⊢
    cases he : exec i s with
    | next u => rw [he] at h; exact ih h
    | fault f => rw [he] at h; cases h
    | refused r => rw [he] at h; cases h

/-- The OK bytes of full writes are BUF_SIZE for each. -/
theorem okBytes_length_of_full {ws : List SinkWrite} {size : Nat} (ok : ∀ w ∈ ws, w.ack = some .ok)
    (full : ∀ w ∈ ws, w.bytes.length = size) : (okBytes ws).length = size * ws.length := by
  rw [okBytes, List.filter_eq_self.2 (by simpa using ok), List.length_flatMap,
    List.map_congr_left full, List.map_const', List.sum_replicate, smul_eq_mul, Nat.mul_comm]

/-- When FINISH goes on, it has written what was left, if anything was (R184). -/
theorem flushRest_ok_sink {s t : State} (h : flushRest s = .ok t) :
    t.sink = s.sink ++ if s.obuf = [] then [] else [⟨s.obuf, some .ok⟩] := by
  unfold flushRest at h
  split at h
  · next he => cases h; simp [he]
  · next hne =>
    obtain ⟨-, e⟩ | ⟨rest, -, e⟩ | ⟨rest, -, e⟩ := flushBuf_cases s <;> rw [e] at h <;> cases h
    simp [hne]

/-- After full writes only, FINISH makes the lengths of the run's writes the chunks of the output (R190). -/
theorem FullWrites.finish {s t : State} (h : FullWrites s) (hs : Machine.Inv s)
    (hp : s.phase = .coded ∨ s.phase = .encoding) (ht : flushRest (padLastByte s) = .ok t) :
    t.runWrites.map (fun w => w.bytes.length) = chunkLengths s.bufSize.toNat t.output.length := by
  have running : s.phase ≠ .fault := (Phase.ne_of_packing hp).1
  have room := hs.pack.room running
  have left := padLastByte_room s room
  rw [(padLastByte_same s).bufSize] at left
  have sink := flushRest_ok_sink ht
  rw [padLastByte_sink] at sink
  have runStart : t.runStart = s.runStart := (PackStep.of_finish ht).same.runStart
  obtain ⟨writes, output⟩ := output_of_sink hs.log.run runStart sink
  have before : s.output.length = s.bufSize.toNat * s.runWrites.length :=
    okBytes_length_of_full (hs.log.clean running) h
  have lengths : s.runWrites.map (fun w => w.bytes.length) = List.replicate s.runWrites.length s.bufSize.toNat := by
    rw [List.map_congr_left h, List.map_const']
  have total : t.output.length = s.bufSize.toNat * s.runWrites.length + (padLastByte s).obuf.length := by
    rw [output, List.length_append, before]
    split
    · next e => simp [e, okBytes]
    · rw [okBytes_ok]
  rw [total, chunkLengths_mul_add (by omega) left, writes, List.map_append, lengths]
  by_cases e : (padLastByte s).obuf = [] <;> simp [e]

/-- Settles O53: the ENCODEs of the text write full buffers only, and FINISH writes what is left. -/
theorem writeLengthsAreTheChunks : Obligations.WriteLengthsAreTheChunks := by
  intro s text h hp ha hl
  obtain ⟨u, hu, inv, phase, ok, -⟩ := runCommands_encode [] h (.inl hp) ha hl
  rw [List.append_nil] at hu
  obtain ⟨-, -, -, -, -, noWrites⟩ := h.pack.unused (.inr (.inr (.inl hp)))
  obtain ⟨full, size⟩ := FullWrites.text (by simp [FullWrites, noWrites]) h hu
  obtain ⟨v, hv, finish⟩ := exec_finish_allOk phase ok
  obtain ⟨t, run, done, pad, hpad, out⟩ := runCommands_text h hp ha hl
  have same : t = { v with phase := .done }.complete 0#64 0#64 := by
    rw [runCommands_append hu] at run
    simp only [runCommands, finish] at run
    cases run
    rfl
  have len := length_of_padded hpad out
  have chunks := full.finish inv phase hv
  refine ⟨t, run, done, len, ?_⟩
  change _ = chunkLengths s.bufSize.toNat (((textBits s text).length + 7) / 8)
  rw [← len, ← size, same]
  exact chunks

end Sys2Proof.Machine

/-! PROOFS. Rejects, fatal errors and the state FAULT (60_exceptions.md).  `exec_of_rejects` and `exec_of_fatals` say
which end a command took from the code it left in LAST_ERR; what that end leaves unchanged is the frame of its body. -/

namespace Sys2Proof.Machine

/-! ### The two kinds of error (R210, R211, R212) -/

/-- The codes of the rejects (R211). -/
def ErrCode.rejects : List ErrCode := [.errIllegal, .errPhase, .errRange, .errBufsize, .errFull, .errDup]

/-- The codes of the fatal errors (R212). -/
def ErrCode.fatals : List ErrCode := [.errEmpty, .errNocode, .errIo, .errInvariant]

theorem ErrCode.not_mem_fatals_of_mem_rejects {e : ErrCode} (h : e ∈ rejects) : e ∉ fatals := by
  revert e
  decide

theorem BodyReject.mem_rejects {i : Instr} {s : State} {e : ErrCode} (h : BodyReject s i e) : e ∈ ErrCode.rejects := by
  cases h <;> decide

theorem BodyFatal.mem_fatals {i : Instr} {s u : State} {e : ErrCode} (h : BodyFatal s i e u) :
    e ∈ ErrCode.fatals := by
  cases h <;> decide

/-- A command that left the code of a reject in LAST_ERR was rejected. -/
theorem exec_of_rejects {i : Instr} {s t : State} (h : exec i s = .next t) (he : t.lastErr ∈ ErrCode.rejects) :
    t = s.takeReject t.lastErr := by
  rcases exec_cases h with ⟨-, rfl⟩ | ⟨-, ⟨u, d0, d1, -, rfl⟩ | ⟨e, -, rfl⟩ | ⟨e, u, hb, rfl⟩⟩
  · rfl
  · exact absurd he (by simp [ErrCode.rejects])
  · rfl
  · exact absurd (body_fatal hb).mem_fatals (ErrCode.not_mem_fatals_of_mem_rejects he)

/-- A command that left the code of a fatal error in LAST_ERR had a body that raised it. -/
theorem exec_of_fatals {i : Instr} {s t : State} (h : exec i s = .next t) (he : t.lastErr ∈ ErrCode.fatals) :
    ∃ e u, BodyFatal s i e u ∧ t = u.takeFatal e := by
  rcases exec_cases h with ⟨-, rfl⟩ | ⟨-, ⟨u, d0, d1, -, rfl⟩ | ⟨e, hb, rfl⟩ | ⟨e, u, hb, rfl⟩⟩
  · exact absurd he (by simp [ErrCode.fatals])
  · exact absurd he (by simp [ErrCode.fatals])
  · exact absurd he (ErrCode.not_mem_fatals_of_mem_rejects (body_reject hb).mem_rejects)
  · exact ⟨e, u, body_fatal hb, rfl⟩

/-- Settles O14: the command was rejected, and Reject writes LAST_ERR, the response and the position. -/
theorem rejectChangesOnlyLastErr : Obligations.RejectChangesOnlyLastErr :=
  fun _ _ _ => exec_of_rejects

/-! ### The frame of a fatal error (R212, R215) -/

/-- What a body that raises the fatal error `e` leaves as it stood in `s`, beside the valid flags (`BodyFatal.flags`)
and the log (`BodyFatal.same`). -/
structure KeptByFatal (s : State) (e : ErrCode) (u : State) : Prop where
  alpha : u.alpha = s.alpha
  root : u.root = s.root
  bufSize : u.bufSize = s.bufSize
  runStart : u.runStart = s.runStart
  runAnswered : u.runAnswered = s.runAnswered
  /-- only a failed structural check leaves NODE or CODE half made -/
  storage : e ≠ .errInvariant → u.node = s.node ∧ u.code = s.code
  /-- only a failed write comes after bits were packed -/
  packer : e ≠ .errIo → u.acc = s.acc ∧ u.accN = s.accN ∧ u.obuf = s.obuf ∧ u.bitsIn = s.bitsIn ∧
    u.bytesOut = s.bytesOut ∧ u.writes = s.writes ∧ u.sink = s.sink ∧ u.ackScript = s.ackScript

/-- Packing keeps what ERR_IO has to leave, from whatever phase it began in. -/
theorem SameOutsidePacker.keptByFatal {s u : State} {p : Phase} (h : SameOutsidePacker { s with phase := p } u) :
    KeptByFatal s .errIo u where
  alpha := h.alpha
  root := h.root
  bufSize := h.bufSize
  runStart := h.runStart
  runAnswered := h.runAnswered
  storage _ := ⟨h.node, h.code⟩
  packer hio := absurd rfl hio

theorem BodyFatal.kept {i : Instr} {s u : State} {e : ErrCode} (h : BodyFatal s i e u) : KeptByFatal s e u := by
  cases h with
  | empty | nocode =>
    exact ⟨rfl, rfl, rfl, rfl, rfl, fun _ => ⟨rfl, rfl⟩, fun _ => ⟨rfl, rfl, rfl, rfl, rfl, rfl, rfl, rfl⟩⟩
  | tree | codes =>
    exact ⟨rfl, rfl, rfl, rfl, rfl, fun hinv => absurd rfl hinv,
      fun _ => ⟨rfl, rfl, rfl, rfl, rfl, rfl, rfl, rfl⟩⟩
  | encodeIo _ hr => exact (PackStep.of_appendBits hr).same.keptByFatal
  | finishIo hr => exact SameOutsidePacker.keptByFatal (p := s.phase) (PackStep.of_finish hr).same

/-- Settles O15: Fatal writes PHASE, FAULT_CAUSE and LAST_ERR of the state that the body has built, and the body has
kept the rest. -/
theorem fatalErrorEntersFault : Obligations.FatalErrorEntersFault := by
  intro i s t h he
  obtain ⟨e, u, hb, rfl⟩ := exec_of_fatals h he
  have kept := hb.kept
  obtain ⟨treeValid, codesValid⟩ := hb.flags
  have answer := hb.same.answers_takeFatal e
  exact ⟨rfl, rfl, kept.alpha, treeValid, codesValid, kept.root, kept.bufSize, answer.params, answer.host,
    kept.runStart, kept.runAnswered, kept.storage, kept.packer, answer.responses, answer.pos⟩

/-! ### In FAULT (R217) -/

/-- In FAULT the phase table admits CLEAR, NOP and reads only (R111). -/
theorem read_of_legal_of_fault {i : Instr} {s : State} (hp : s.phase = .fault) (hi : i ≠ .clear)
    (hl : legal i s = true) : isRead i = true ∨ i = .nop := by
  rw [legal_iff] at hl
  cases i with
  | nop => exact .inr rfl
  | clear => exact absurd rfl hi
  | readReg | readAlpha | readNode | readCode => exact .inl rfl
  | loadSym | build | derive | setBufsize | encode | finish => simp [hp] at hl

/-- Settles O16: outside the phase table ERR_PHASE, inside it a read or NOP, which completes or is ERR_RANGE. -/
theorem faultIsLeftOnlyByClear : Obligations.FaultIsLeftOnlyByClear := by
  intro i s hp hi
  cases hl : legal i s with
  | false => exact ⟨_, exec_of_illegal hl, rfl, by simp⟩
  | true =>
    rcases body_of_read s (read_of_legal_of_fault hp hi hl) with ⟨d0, d1, hb⟩ | hb
    · exact ⟨s.complete d0 d1, by rw [exec_of_legal hl, hb, finishCommand], rfl, by simp⟩
    · exact ⟨s.takeReject .errRange, by rw [exec_of_legal hl, hb, finishCommand], rfl, by simp⟩

/-! ### Waiting for the host (R220), and the fatal errors ERR_EMPTY and ERR_NOCODE (R221, R223) -/

/-- Settles O7: no event, no step. -/
theorem stepWaitsForTheHost : Obligations.StepWaitsForTheHost := by
  intro s hs
  simp only [step, takeEvent, hs]

/-- Settles O30: the body of BUILD tests N before it makes a node. -/
theorem buildOfNothingIsFatal : Obligations.BuildOfNothingIsFatal := by
  intro s hp h0
  rw [exec_of_legal ((legal_iff .build s).2 hp), bodyOf, bodyBuild, if_pos h0, finishCommand]

/-- Settles O45: a symbol that is not loaded has no code, and the body ends before the first bit. -/
theorem encodeOfAnUnloadedSymbolIsFatal : Obligations.EncodeOfAnUnloadedSymbolIsFatal := by
  intro s sym hp hne
  have noCode : codeOf s sym = none := by rw [codeOf, findSym_eq_none.2 hne]
  rw [exec_of_legal ((legal_iff (.encode sym) s).2 hp), bodyOf, bodyEncode, noCode, finishCommand]

/-! ### The fatal error ERR_IO of ENCODE (R183, R215) -/

theorem State.stream_length (s : State) :
    s.stream.length = 8 * (s.output.length + s.obuf.length) + s.accN.val := by
  simp [State.stream, Nat.mul_add, Nat.add_assoc]

/-- A buffer that had room and is full now has taken in at least one bit. -/
theorem stream_ne_of_filled {s t : State} {new : List Byte} (output : t.output = s.output ++ new)
    (room : s.obuf.length < s.bufSize.toNat) (full : t.obuf.length = s.bufSize.toNat) : t.stream ≠ s.stream := by
  intro same
  have length := congrArg List.length same
  rw [s.stream_length, t.stream_length, output, List.length_append, full] at length
  have := s.accN.isLt
  omega

/-- Where packing stops when a write fails: at the bit that filled OBUF, which is still full and is the write that
failed; the writes before it were acknowledged OK, and the counters count those alone (R182, R183, R215). -/
theorem appendBits_stop {s t : State} {c : Code} (hr : s.runStart ≤ s.sink.length)
    (room : s.obuf.length < s.bufSize.toNat) (ht : appendBits s c = .ioFail t) :
    t.acc = 0#8 ∧ t.accN = 0 ∧ t.obuf.length = t.bufSize.toNat ∧
    (∃ j, 1 ≤ j ∧ j ≤ c.length ∧ t.stream = s.stream ++ c.take j ∧ t.bitsIn = s.bitsIn + BitVec.ofNat 64 j) ∧
    ∃ new, t.sink = s.sink ++ new ++ [⟨t.obuf, some .fail⟩] ∧ (∀ w ∈ new, w.ack = some .ok) ∧
      t.bytesOut = s.bytesOut + BitVec.ofNat 64 (okBytes new).length ∧
      t.writes = s.writes + BitVec.ofNat 64 new.length := by
  have stop := appendBits_room c s room
  have step : PackStep s t := .of_appendBits ht
  obtain ⟨j, le, stream, bits, -⟩ := appendBits_stream c s hr
  obtain ⟨new, xs, issued, -⟩ := appendBits_issues c s
  rw [ht] at stop stream bits issued
  have stream : t.stream = s.stream ++ c.take j := stream
  have sink : t.sink = s.sink ++ new := issued.sink
  obtain ⟨full, acc, accN, -⟩ := stop
  obtain ⟨front, rfl, ok⟩ := issued.outcome
  obtain ⟨new, counted, bytes, writes⟩ := step.grows
  obtain rfl : new = front ++ [⟨t.obuf, some .fail⟩] := List.append_cancel_left (counted.symm.trans sink)
  have output := (output_of_sink hr step.same.runStart sink).2
  simp only [okBytes_append, okBytes_fail, List.append_nil, okCount_append] at bytes writes output
  refine ⟨acc, accN, full, ⟨j, ?_, le, stream, bits⟩, front, ?_, ok, bytes, ?_⟩
  · have grown := stream_ne_of_filled output room (full.trans (congrArg BitVec.toNat step.same.bufSize))
    rw [Nat.one_le_iff_ne_zero]
    rintro rfl
    exact grown (by rw [stream, List.take_zero, List.append_nil])
  · rw [sink, List.append_assoc]
  · rw [writes, okCount_of_forall_ok ok]
    rfl

/-- Settles O46: the command's end is that of its packing, with the code that the symbol's entry holds. -/
theorem encodeStopsAtTheFailedWrite : Obligations.EncodeStopsAtTheFailedWrite := by
  intro s t k e c hp distinct hk hc hr room h hio
  obtain ⟨err, u, hb, rfl⟩ := exec_of_fatals h (by rw [hio]; decide)
  obtain rfl : err = .errIo := hio
  cases hb with
  | encodeIo hc' ht =>
    obtain rfl := Option.some.inj (hc'.symm.trans (codeOf_eq distinct hk hc))
    have stop := appendBits_stop (s := { s with phase := .encoding }) hr room ht
    exact ⟨rfl, rfl, stop⟩

end Sys2Proof.Machine

/-! PROOFS. Reset, and where a command can stop (70_reset_and_hazards.md R240, R241, R247).  `exec_answers_or_hangs`
says that a command without an answer is a body that waits; `runWord_next_or_silent` adds which of the sink's answers
the writes of a command word have drawn, whichever way its run ends. -/

namespace Sys2Proof.Machine

/-! ### A command that never answers (R247) -/

/-- A command answers, unless its body waits for the sink. -/
theorem exec_answers_or_hangs (i : Instr) (s : State) :
    (∃ t, exec i s = .next t) ∨ ∃ t, bodyOf i s = .hang t ∧ exec i s = .fault (.sinkSilent t) := by
  cases hl : legal i s with
  | false => exact .inl ⟨_, exec_of_illegal hl⟩
  | true =>
    rw [exec_of_legal hl]
    cases bodyOf i s with
    | done t d0 d1 => exact .inl ⟨_, rfl⟩
    | reject e => exact .inl ⟨_, rfl⟩
    | fatal e t => exact .inl ⟨_, rfl⟩
    | hang t => exact .inr ⟨t, rfl, rfl⟩

/-- A body that waits has packed from `s` up to a write that has no answer. -/
theorem hang_issues {i : Instr} {s t : State} (h : bodyOf i s = .hang t) : ∃ new xs, Issues s (.hang t) new xs := by
  rcases body_hang h with ⟨sym, c, -, -, ha⟩ | ⟨-, hf⟩
  · exact encode_issues ha
  · exact finish_issues hf

/-- It has given no response, and its command is ENCODE or FINISH. -/
theorem hang_frame {i : Instr} {s t : State} (h : bodyOf i s = .hang t) :
    t.responses = s.responses ∧ t.pos = s.pos ∧ (i = .finish ∨ ∃ sym, i = .encode sym) := by
  rcases body_hang h with ⟨sym, c, hi, -, ha⟩ | ⟨hi, hf⟩
  · have same := (PackStep.of_appendBits ha).same
    exact ⟨same.responses, same.pos, .inr ⟨sym, hi⟩⟩
  · have same := (PackStep.of_finish hf).same
    exact ⟨same.responses, same.pos, .inl hi⟩

/-- Settles O9: the body that waits is one that packs, and packing waits only for a sink with no answer left. -/
theorem commandsStopOnlyAtASilentSink : Obligations.CommandsStopOnlyAtASilentSink := by
  intro i s
  refine (exec_answers_or_hangs i s).imp_right ?_
  rintro ⟨t, hb, hstop⟩
  obtain ⟨new, xs, issued⟩ := hang_issues hb
  exact ⟨t, hstop, issued.outcome.2, hang_frame hb⟩

/-! ### The reset input (R240) -/

theorem step_reset {s : State} {rest : List HostEvent} (h : s.host = .reset :: rest) :
    step s = .next { s with host := rest }.clearBlock := by
  simp only [step, takeEvent, h]
  rfl

/-- Settles O22: the step is the reset of the block, with the event taken. -/
theorem resetInputGivesTheResetState : Obligations.ResetInputGivesTheResetState := by
  intro s rest hs
  rw [step_reset hs]
  rfl

/-! ### The answers that the writes of a command have drawn (R64) -/

/-- `t` is past the writes `new` from `s`, and their answers `xs` are the sink's next ones, in order. -/
structure Draws (s t : State) (new : List SinkWrite) (xs : List Ack) : Prop where
  sink : t.sink = s.sink ++ new
  acks : new.map SinkWrite.ack = xs.map some
  drawn : AckScript.Drawn s.ackScript xs t.ackScript

theorem Draws.nil {s t : State} (sink : t.sink = s.sink) (ackScript : t.ackScript = s.ackScript) :
    Draws s t [] [] :=
  ⟨by rw [sink, List.append_nil], rfl, ackScript⟩

theorem Issues.draws {s : State} {r : PackResult} {new : List SinkWrite} {xs : List Ack} (h : Issues s r new xs) :
    Draws s r.state new xs :=
  ⟨h.sink, h.acks, h.drawn⟩

/-- The rest of a command (R110, R184, R212) leaves the sink alone. -/
theorem Draws.congr {s t u : State} {new : List SinkWrite} {xs : List Ack} (h : Draws s t new xs)
    (sink : u.sink = t.sink) (ackScript : u.ackScript = t.ackScript) : Draws s u new xs :=
  ⟨sink ▸ h.sink, h.acks, ackScript ▸ h.drawn⟩

theorem BodyDone.draws {i : Instr} {s u : State} {d0 d1 : Word} (h : BodyDone s i u d0 d1) :
    ∃ new xs, Draws s u new xs := by
  cases h with
  | encode _ ha =>
    obtain ⟨new, xs, issued⟩ := encode_issues ha
    exact ⟨new, xs, issued.draws⟩
  | finish hf =>
    obtain ⟨new, xs, issued⟩ := finish_issues hf
    exact ⟨new, xs, issued.draws.congr rfl rfl⟩
  | _ => exact ⟨[], [], .nil rfl rfl⟩

theorem BodyFatal.draws {i : Instr} {s u : State} {e : ErrCode} (h : BodyFatal s i e u) :
    ∃ new xs, Draws s u new xs := by
  cases h with
  | encodeIo _ ha =>
    obtain ⟨new, xs, issued⟩ := encode_issues ha
    exact ⟨new, xs, issued.draws⟩
  | finishIo hf =>
    obtain ⟨new, xs, issued⟩ := finish_issues hf
    exact ⟨new, xs, issued.draws⟩
  | _ => exact ⟨[], [], .nil rfl rfl⟩

theorem exec_draws {i : Instr} {s t : State} (h : exec i s = .next t) : ∃ new xs, Draws s t new xs := by
  rcases exec_cases h with ⟨-, rfl⟩ | ⟨-, ⟨u, d0, d1, hb, rfl⟩ | ⟨e, -, rfl⟩ | ⟨e, u, hb, rfl⟩⟩
  · exact ⟨[], [], .nil rfl rfl⟩
  · obtain ⟨new, xs, draws⟩ := (body_done hb).draws
    exact ⟨new, xs, draws.congr rfl rfl⟩
  · exact ⟨[], [], .nil rfl rfl⟩
  · obtain ⟨new, xs, draws⟩ := (body_fatal hb).draws
    exact ⟨new, xs, draws.congr rfl rfl⟩

/-- The run of a command word ends in an answer, or waits for a sink that has no answer left; either way its writes
have drawn the sink's next answers. -/
theorem runWord_next_or_silent (cw : Word) (s : State) : ∃ t new xs, Draws s t new xs ∧
    (runWord cw s = .next t ∨ runWord cw s = .fault (.sinkSilent t) ∧ t.ackScript.answer = none) := by
  cases hd : decode cw with
  | error e => exact ⟨s.takeReject .errIllegal, [], [], .nil rfl rfl, .inl (runWord_error s hd)⟩
  | ok i =>
    rw [runWord_ok s hd]
    rcases exec_answers_or_hangs i s with ⟨t, ht⟩ | ⟨t, hb, hstop⟩
    · obtain ⟨new, xs, draws⟩ := exec_draws ht
      exact ⟨t, new, xs, draws, .inl ht⟩
    · obtain ⟨new, xs, issued⟩ := hang_issues hb
      exact ⟨t, new, xs, issued.draws, .inr ⟨hstop, issued.outcome.2⟩⟩

/-! ### Reset during a command (R241) -/

/-- With a sink that is silent after `acks`, the writes answered have the first of `acks`. -/
theorem Draws.acks_prefix {s t : State} {new : List SinkWrite} {xs acks : List Ack} (h : Draws s t new xs)
    (hs : s.ackScript = { acks := acks, thereafter := .silent }) : new.map SinkWrite.ack <+: acks.map some := by
  obtain ⟨rest, hacks, -⟩ := AckScript.Drawn.silent (hs ▸ h.drawn)
  rw [h.acks, hacks, List.map_append]
  exact List.prefix_append _ _

/-- And once it has no answer left, they have all of them. -/
theorem Draws.length_eq {s t : State} {new : List SinkWrite} {xs acks : List Ack} (h : Draws s t new xs)
    (hs : s.ackScript = { acks := acks, thereafter := .silent }) (ht : t.ackScript.answer = none) :
    new.length = acks.length := by
  obtain ⟨rest, hacks, hend⟩ := AckScript.Drawn.silent (hs ▸ h.drawn)
  rw [hend] at ht
  cases rest with
  | nil => simpa [hacks] using congrArg List.length h.acks
  | cons x rest => cases ht

theorem step_resetDuring {s : State} {cw : Word} {acks : List Ack} {inFlight : Bool} {rest : List HostEvent}
    (h : s.host = .resetDuring cw acks inFlight :: rest) :
    step s = .next (resetDuring cw acks inFlight { s with host := rest }) := by
  simp only [step, takeEvent, h]
  rfl

theorem abandonedSink_of_next {cw : Word} {acks : List Ack} {s t : State} (inFlight : Bool)
    (h : runWord cw { s with ackScript := { acks := acks, thereafter := .silent } } = .next t) :
    abandonedSink cw acks inFlight s = t.sink := by
  rw [abandonedSink, h]

theorem abandonedSink_of_silent {cw : Word} {acks : List Ack} {s t : State} (inFlight : Bool)
    (h : runWord cw { s with ackScript := { acks := acks, thereafter := .silent } } = .fault (.sinkSilent t)) :
    abandonedSink cw acks inFlight s = t.sink ++ if inFlight then [⟨t.obuf, none⟩] else [] := by
  rw [abandonedSink, h]
  cases inFlight
  · exact (List.append_nil _).symm
  · rfl

/-- Settles O23: the writes answered are those that the abandoned run has drawn answers for; a run that waits adds the
write in flight, if the draw has one. -/
theorem resetDuringKeepsTheIssuedWrites : Obligations.ResetDuringKeepsTheIssuedWrites := by
  intro s cw acks inFlight rest hs abandoned
  obtain ⟨t, new, xs, draws, hrun⟩ :=
    runWord_next_or_silent cw { s with host := rest, ackScript := { acks := acks, thereafter := .silent } }
  have answered : s.sink ++ new = t.sink := draws.sink.symm
  rw [step_resetDuring hs, resetDuring]
  rcases hrun with hnext | ⟨hstop, hnone⟩
  · refine ⟨new, [], ?_, .inl ⟨t, hnext, answered, rfl⟩, draws.acks_prefix rfl⟩
    rw [abandonedSink_of_next inFlight hnext, List.append_nil, answered]
    rfl
  · refine ⟨new, if inFlight then [⟨t.obuf, none⟩] else [], ?_,
      .inr ⟨t, hstop, answered, draws.length_eq rfl hnone, rfl⟩, draws.acks_prefix rfl⟩
    rw [abandonedSink_of_silent inFlight hstop, answered]
    rfl

end Sys2Proof.Machine
